-- ==== Sys2Proof/Word.lean ====
section
/-! DEFINITION. The word types of DRVENC (00_scope.md R5): bytes, 32-bit fields, the 64-bit word, the 4-bit
operation index and the 8-byte block the host and the machine exchange. All values are unsigned (R8). -/

namespace Sys2Proof

/-- One byte of the byte buffer. -/
abbrev Byte := BitVec 8

/-- The register `R` as one word, `R[k]` at weight `2^k` (30_encoding.md R40), or the buffer word `V`. -/
abbrev Word64 := BitVec 64

/-- An output field, `DRV1` or `DRV0`. -/
abbrev Word32 := BitVec 32

/-- The operation index `op[3:0]` of format OP4 and the phase index `PH` (30_encoding.md R44, 10_state.md R15). -/
abbrev OpIndex := BitVec 4

/-- Eight bytes, byte 0 first: the input or the output of one invocation. -/
abbrev Block := Vector Byte 8

end Sys2Proof
end

