-- ==== Sys2Proof/Syntax.lean ====
section
/-! DEFINITION. The ten operations of DRVENC, one constructor for each row of spec/opcode_table.json
(30_encoding.md R44), and the two composites the spec names (R47). -/

namespace Sys2Proof

/-- An operation of the canonical sequence. None has an operand: every index it uses is wired in (R44). -/
inductive Instr where
  /-- BUILD, `op = 0`: `R <- unpack(BUF)` (40_builder.md R51). -/
  | build
  /-- CODE1, `op = 1`: code bit at register index 1 (42_parity_generator.md R60). -/
  | code1
  /-- CODE2, `op = 2`: code bit at register index 2 (R61). -/
  | code2
  /-- CODE4, `op = 3`: code bit at register index 4 (R62). -/
  | code4
  /-- CODE8, `op = 4`: code bit at register index 8 (R63). -/
  | code8
  /-- CODE16, `op = 5`: code bit at register index 16 (R64). -/
  | code16
  /-- CODE32, `op = 6`: code bit at register index 32 (R65). -/
  | code32
  /-- PARITY, `op = 7`: overall parity bit at register index 0 (R66). -/
  | parity
  /-- PACK, `op = 8`: `BUF <- pack(R)` (43_packer.md R76). -/
  | pack
  /-- REPORT, `op = 9`: `DRV1`, `DRV0` from the packed bytes (R77). -/
  | report
  deriving DecidableEq, Repr

/-- The six code-bit operations in the source's ascending order. -/
def codeOps : List Instr := [.code1, .code2, .code4, .code8, .code16, .code32]

/-- The composite ENCODE (30_encoding.md R47, 42_parity_generator.md R68). -/
def encodeOps : List Instr := codeOps ++ [.parity]

/-- The composite DRVGEN, which is the canonical sequence (10_state.md R15, 43_packer.md R79). -/
def drvgenOps : List Instr := .build :: encodeOps ++ [.pack, .report]

end Sys2Proof
end

