-- ==== Sys2Proof/WellFormed.lean ====
section
/-! DEFINITION. What a well-formed operation, a well-formed input and a well-formed sequence of operations are. -/

namespace Sys2Proof

/-- An operation has no operand field (30_encoding.md R44), so there is nothing that could be out of range:
every operation is well formed. -/
def Instr.wf : Instr → Bool
  | .build => true
  | .code1 => true
  | .code2 => true
  | .code4 => true
  | .code8 => true
  | .code16 => true
  | .code32 => true
  | .parity => true
  | .pack => true
  | .report => true

/-- The host owes the block exactly 8 bytes (70_reset_and_hazards.md R103). -/
def inputWf (bytes : List Byte) : Bool := bytes.length == 8

/-- A sequence of operations is an invocation exactly when it is the canonical sequence (10_state.md R15). -/
def isInvocation (ops : List Instr) : Bool := ops == drvgenOps

/-- Both operations stand in the sequence, and the first `a` stands before the first `b`. -/
def comesBefore (a b : Instr) (ops : List Instr) : Bool :=
  ops.contains a && ops.contains b && decide (ops.idxOf a < ops.idxOf b)

/-- The four orderings the result depends on (70_reset_and_hazards.md R104), for a sequence that runs each of the
ten operations once. -/
def meetsOrder (ops : List Instr) : Bool :=
  ops.isPerm drvgenOps &&
  encodeOps.all (fun i => comesBefore .build i ops) &&
  codeOps.all (fun i => comesBefore i .parity ops) &&
  encodeOps.all (fun i => comesBefore i .pack ops) &&
  comesBefore .pack .report ops

end Sys2Proof
end

