-- ==== Sys2Proof/Decode.lean ====
section
/-! DEFINITION. Decoding and encoding of the operation index (30_encoding.md R44, R45). The block fetches no
instructions (20_memory.md R33); what is decoded is the 4-bit index `op`, read from `PH` by the machine and from
one byte by `decode`. -/

namespace Sys2Proof

/-- Why bits name no operation. -/
inductive DecodeError where
  /-- No byte left to read an index from. -/
  | noByte
  /-- A byte whose bits 7..4 are not all 0: format OP4 is one 4-bit field and nothing else (R44). Log entry 6. -/
  | notOp4 (b : Byte)
  /-- `op` 10 to 15 names no operation and is refused (R45). -/
  | reservedIndex (op : OpIndex)
  deriving DecidableEq, Repr

/-- One row of spec/opcode_table.json. -/
structure OpRow where
  mask : OpIndex
  pattern : OpIndex
  instr : Instr
  deriving DecidableEq, Repr

/-- The operation index table of R44. -/
def opTable : List OpRow :=
  [ ⟨0b1111, 0b0000, .build⟩,
    ⟨0b1111, 0b0001, .code1⟩,
    ⟨0b1111, 0b0010, .code2⟩,
    ⟨0b1111, 0b0011, .code4⟩,
    ⟨0b1111, 0b0100, .code8⟩,
    ⟨0b1111, 0b0101, .code16⟩,
    ⟨0b1111, 0b0110, .code32⟩,
    ⟨0b1111, 0b0111, .parity⟩,
    ⟨0b1111, 0b1000, .pack⟩,
    ⟨0b1111, 0b1001, .report⟩ ]

/-- The operation an index names, or none for 10 to 15 (R44, R45). -/
def decodeOp (op : OpIndex) : Option Instr :=
  (opTable.find? (fun row => op &&& row.mask == row.pattern)).map OpRow.instr

/-- The decoder over bytes, one operation a byte with `op` in bits 3..0; it returns the bytes it did not read.
DESIGN CHOICE (log entry 6): the spec gives an index 4 bits and no byte layout. -/
def decode : List Byte → Except DecodeError (Instr × List Byte)
  | [] => .error .noByte
  | b :: rest =>
    if b.toNat < 16 then
      match decodeOp (b.setWidth 4) with
      | some i => .ok (i, rest)
      | none => .error (.reservedIndex (b.setWidth 4))
    else .error (.notOp4 b)

/-- A sequence of operations given as its sequence of 4-bit indices (95_test_vectors.md section 4). -/
def decodeProgram : List OpIndex → Except DecodeError (List Instr)
  | [] => .ok []
  | op :: rest =>
    match decodeOp op, decodeProgram rest with
    | none, _ => .error (.reservedIndex op)
    | some _, .error e => .error e
    | some i, .ok is => .ok (i :: is)

/-- The bytes of an instruction whose bits are `w`, the first byte holding the least significant bits: as many
bytes as `nbits` asks for, at least the one byte that the longest operation takes; bits at or above `nbits` are 0. -/
def tableBytes (nbits w : Nat) : List Byte :=
  (List.range (max 1 ((nbits + 7) / 8))).map (fun j => BitVec.ofNat 8 ((w % 2 ^ nbits) / 2 ^ (8 * j)))

/-- The operation the decoder reads from an opcode-table word. -/
def decodeTableWord (nbits w : Nat) : Option Instr :=
  match decode (tableBytes nbits w) with
  | .ok (i, _) => some i
  | .error _ => none

/-- The index of an operation, from the table of R44; it equals the phase at which the operation runs. -/
def encodeOp : Instr → OpIndex
  | .build => 0
  | .code1 => 1
  | .code2 => 2
  | .code4 => 3
  | .code8 => 4
  | .code16 => 5
  | .code32 => 6
  | .parity => 7
  | .pack => 8
  | .report => 9

/-- The bytes of an operation: one byte, `op` in bits 3..0, bits 7..4 zero (log entry 6). -/
def encode (i : Instr) : List Byte := [(encodeOp i).setWidth 8]

/-- A sequence of operations as its sequence of 4-bit indices. -/
def encodeProgram (ops : List Instr) : List OpIndex := ops.map encodeOp

end Sys2Proof
end

