-- ==== Sys2Proof/Machine/Operands.lean ====
section
/-! DEFINITION. The wired-in operands of the operations: bits of a word, the bit-position decoder
(41_position_decoder.md), the mapping between bytes and register bits (30_encoding.md R37), the word views (R40)
and the fields (R41). The ten operations have no operand of their own. -/

namespace Sys2Proof.Machine

/-! ### Bits -/

/-- The `n`-bit word whose bit `k` is `f k`. -/
def ofBits : (n : Nat) → (Nat → Bool) → BitVec n
  | 0, _ => 0#0
  | n + 1, f => BitVec.cons (f n) (ofBits n f)

/-- `R[k] <- v`: every other bit keeps its value (00_scope.md R8). -/
def writeBit (r : Word64) (k : Nat) (v : Bool) : Word64 :=
  (r &&& ~~~(1#64 <<< k)) ||| ((if v then 1#64 else 0#64) <<< k)

/-- `XOR{ R[j] : j in S }`, 0 for the empty set (00_scope.md R7). The order of the terms is free (R74). -/
def xorOver (S : List Nat) (r : Word64) : Bool :=
  S.foldl (fun acc j => acc ^^ r.getLsbD j) false

/-- The number of 1 bits (00_scope.md R7). -/
def popcount {n : Nat} (x : BitVec n) : Nat :=
  (List.range n).countP (fun k => x.getLsbD k)

/-! ### The bit-position decoder -/

/-- The role of a register index (30_encoding.md R35). -/
inductive PosClass where
  | parity
  | code
  | data
  deriving DecidableEq, Repr

/-- The six code positions, in ascending order. -/
def codePositions : List Nat := [1, 2, 4, 8, 16, 32]

/-- `class(k)` of 41_position_decoder.md R55. -/
def classOf (k : Nat) : PosClass :=
  if k = 0 then .parity else if k ∈ codePositions then .code else .data

/-- The 57 data positions, in ascending order (30_encoding.md R35). -/
def dataPositions : List Nat := (List.range 64).filter (fun k => classOf k = .data)

/-- `cover(i) = { j in i..63 : (i & j) != 0 }` (R56). -/
def cover (i : Nat) : List Nat := (List.range 64).filter (fun j => i ≤ j && (i &&& j) != 0)

/-- `inputs(i)`: the cover without `i` itself (R56). -/
def inputs (i : Nat) : List Nat := (cover i).filter (fun j => j != i)

/-! ### Bytes and register bits -/

/-- Bit `b` of byte `i` of a block, `BUF[i][b]`, `b = 7` being mask 0x80 (00_scope.md R6). -/
def byteBit (L : Block) (i b : Nat) : Bool := (L.toList.getD i 0).getLsbD b

/-- `unpack(L)[k] = L[7 - (k div 8)][7 - (k mod 8)]` (40_builder.md R50). -/
def unpack (L : Block) : Word64 := ofBits 64 (fun k => byteBit L (7 - k / 8) (7 - k % 8))

/-- Byte `i` of the packed register: `pack(R)[i][7 - m] = R[56 - 8*i + m]` (43_packer.md R75). -/
def packByte (r : Word64) (i : Nat) : Byte := ofBits 8 (fun b => r.getLsbD (56 - 8 * i + (7 - b)))

/-- `pack(R)`, the inverse of `unpack` (R75). -/
def pack (r : Word64) : Block :=
  #v[packByte r 0, packByte r 1, packByte r 2, packByte r 3,
     packByte r 4, packByte r 5, packByte r 6, packByte r 7]

/-! ### Word views and fields -/

/-- The buffer as a big-endian integer, `V` (30_encoding.md R40). -/
def bufferWord (L : Block) : Word64 :=
  L[0] ++ L[1] ++ L[2] ++ L[3] ++ L[4] ++ L[5] ++ L[6] ++ L[7]

/-- Four bytes as a 32-bit number, the first the most significant (20_memory.md R23). -/
def bigEndian32 (b0 b1 b2 b3 : Byte) : Word32 := b0 ++ b1 ++ b2 ++ b3

/-- `DRV1` of a packed buffer: bytes 0 to 3 (30_encoding.md R41, 43_packer.md R77). Log entry 16. -/
def field1 (L : Block) : Word32 := bigEndian32 L[0] L[1] L[2] L[3]

/-- `DRV0` of a packed buffer: bytes 4 to 7 (R41, R77). Log entry 16. -/
def field0 (L : Block) : Word32 := bigEndian32 L[4] L[5] L[6] L[7]

/-- The byte masks of the 57 data positions, `DM` of 43_packer.md R80. -/
def dataMask : Block := #v[0xFF, 0xFF, 0xFF, 0x7F, 0xFF, 0x7F, 0x7F, 0x17]

/-- The byte masks of the seven computed positions, `CM` of R80. -/
def computedMask : Block := #v[0x00, 0x00, 0x00, 0x80, 0x00, 0x80, 0x80, 0xE8]

end Sys2Proof.Machine
end

