-- ==== Sys2Proof/Config.lean ====
section
/-! DEFINITION. The values the spec leaves open. `PORTS`, `LATENCY` and `REPORT_LAYOUT` (92_eei_decisions.md D2,
D18, D22) change no value the block computes and stand in no definition (log entries 10 and 15); all sizes are
fixed (00_scope.md R5) and are in the types. -/

namespace Sys2Proof

/-- FREE VALUE (log entry 4): what `PH` holds after an operation that ran while `PH` was 15. The rule
`PH <- PH + 1` gives 16, which 4 bits cannot hold, and 10_state.md R15 says only that an invocation never gets
there. It has no body, so nothing can be proved of its value. -/
opaque Config.phaseAfterLast : OpIndex

end Sys2Proof
end

