-- ==== Sys2Proof/Machine/State.lean ====
section
/-! DEFINITION. The state of DRVENC (10_state.md R10), the state after reset, and the reasons a step can stop. -/

namespace Sys2Proof.Machine

/-- The complete state of the block during one invocation (R10). -/
structure State where
  /-- `BUF` (R13, R20): the bytes of the buffer that have a value, addresses strictly rising. An address that is
  not listed has no value (R16). Log entries 1 and 3. -/
  buf : List Host.Cell
  /-- `R` (R11): `R[k]` is bit `k`, weight `2^k` (30_encoding.md R40). Log entry 7. -/
  r : Word64
  /-- `DRV1` (R14), `none` while it has no value (R16). Log entry 2. -/
  drv1 : Option Word32
  /-- `DRV0` (R14), `none` while it has no value (R16). Log entry 2. -/
  drv0 : Option Word32
  /-- `PH` (R15): the number of the operation that executes next. -/
  ph : OpIndex
  deriving DecidableEq, Repr

/-- The machine before the host has given it an input: `R` all zero, `PH` 0, and no value in `BUF`, `DRV1` and
`DRV0`, which "a model must not assign them zero or any other number" (R16; section 8 of 10_state.md; D17).
`State.load` in Machine/Ops.lean makes the start state of an invocation from it. Log entry 1. -/
def State.reset : State :=
  { buf := [], r := 0, drv1 := none, drv0 := none, ph := 0 }

/-- Why the machine stops with a fault. The block itself raises none (60_exceptions.md R85). -/
inductive Fault where
  /-- An access to the byte buffer that reaches an address beyond 7, which does not exist (20_memory.md R27).
  Raised by `memRead` and `memWrite`; no operation forms such an access (R25), so no step raises it. Safe: the
  machine stops. Log entry 11. -/
  | noSuchAddress (a : Nat)
  deriving DecidableEq, Repr

/-- Why a step has no meaning. -/
inductive Refusal where
  /-- An arm of `exec` that has no meaning yet; no arm uses it any more. Safe: the machine stops. -/
  | notModelled (mnemonic : String)
  /-- BUILD or REPORT would read a byte of `BUF` that has no value (10_state.md R16, 40_builder.md R52,
  93_implementation_defined.md U2: "refuse"). Raised by `memRead`. Safe: the machine stops. Log entries 1 and 3. -/
  | bufferWithoutValue
  /-- An access to part of the buffer, to which the spec gives no meaning (20_memory.md R25, D8). Raised by `memRead`
  and `memWrite`; no operation forms one. Safe: the machine stops. Log entry 11. -/
  | partialAccess (a n : Nat)
  /-- `PH` is 10: the invocation is over and no operation is left to execute (10_state.md R15, R17). Raised by
  `step`. Safe: the machine stops. Log entry 5. -/
  | invocationOver
  /-- `PH` is 11 to 15, which names no operation (30_encoding.md R45, U3: "refuse"). Raised by `step`. Safe: the
  machine stops. Log entry 5. -/
  | reservedIndex (op : OpIndex)
  deriving DecidableEq, Repr

end Sys2Proof.Machine
end

