-- ==== Sys2Proof/Machine/Ops.lean ====
section
/-! DEFINITION. The named operations over the state that the meanings share: the byte buffer, the whole accesses
`MemRead` and `MemWrite` (00_scope.md R8, 20_memory.md R25), the writes of the other elements, the phase index, the
choice of the next operation, and the host's start of an invocation. The block takes no exception and returns from
none (60_exceptions.md R85, R94), so there is no operation for either. -/

namespace Sys2Proof.Machine

/-- Go on with what an access answered, or stop as it stopped. -/
def andThen {α β : Type} (x : Host.Outcome α Fault Refusal) (f : α → Host.Outcome β Fault Refusal) :
    Host.Outcome β Fault Refusal :=
  match x with
  | .next a => f a
  | .fault e => .fault e
  | .refused e => .refused e

/-! ### The byte buffer -/

/-- The canonical form of the buffer: addresses strictly rising, every address one of 0..7 (R20). An unlisted
address has no value, so no listed entry can be equal to what an unlisted address reads as. -/
abbrev Memory.wf (m : List Host.Cell) : Prop :=
  m.Pairwise (fun c d => c.1 < d.1) ∧ ∀ c ∈ m, c.1 < 8

/-- The byte at an address, `none` where the buffer has no value (10_state.md R16). -/
def Memory.read : List Host.Cell → Nat → Option Byte
  | [], _ => none
  | c :: rest, a => if c.1 = a then some c.2 else Memory.read rest a

/-- `BUF[a] <- v`, keeping the addresses strictly rising. -/
def Memory.write : List Host.Cell → Nat → Byte → List Host.Cell
  | [], a, v => [(a, v)]
  | c :: rest, a, v =>
    if a < c.1 then (a, v) :: c :: rest
    else if a = c.1 then (a, v) :: rest
    else c :: Memory.write rest a v

/-- All eight bytes, or `none` if one of them has no value. -/
def Memory.block (m : List Host.Cell) : Option Block :=
  match Memory.read m 0, Memory.read m 1, Memory.read m 2, Memory.read m 3,
        Memory.read m 4, Memory.read m 5, Memory.read m 6, Memory.read m 7 with
  | some b0, some b1, some b2, some b3, some b4, some b5, some b6, some b7 =>
      some #v[b0, b1, b2, b3, b4, b5, b6, b7]
  | _, _, _, _, _, _, _, _ => none

/-- Write the bytes of a list at consecutive addresses. -/
def Memory.writeList : List Host.Cell → Nat → List Byte → List Host.Cell
  | m, _, [] => m
  | m, a, v :: rest => Memory.writeList (Memory.write m a v) (a + 1) rest

/-- `BUF[t] <- L[t]` for the eight bytes of a block. -/
def Memory.putBlock (m : List Host.Cell) (L : Block) : List Host.Cell := Memory.writeList m 0 L.toList

/-- `MemRead(a, n)`: the whole buffer for `(0, 8)`. Any other access has no meaning (R25, D8): it stops, with a fault
where it reaches an address that does not exist (R27). Log entry 11. -/
def memRead (s : State) (a n : Nat) : Host.Outcome Block Fault Refusal :=
  if a = 0 ∧ n = 8 then
    match Memory.block s.buf with
    | some L => .next L
    | none => .refused .bufferWithoutValue
  else if a + n ≤ 8 then .refused (.partialAccess a n)
  else .fault (.noSuchAddress a)

/-- The state with another buffer. -/
def State.withBuf (s : State) (m : List Host.Cell) : State := { s with buf := m }

/-- `MemWrite(a, n, L)`, with the same limits as `memRead`. -/
def memWrite (s : State) (a n : Nat) (L : Block) : Host.Outcome State Fault Refusal :=
  if a = 0 ∧ n = 8 then .next (s.withBuf (Memory.putBlock s.buf L))
  else if a + n ≤ 8 then .refused (.partialAccess a n)
  else .fault (.noSuchAddress a)

/-! ### The register, the fields and the phase index -/

/-- `R <- w`. -/
def State.withR (s : State) (w : Word64) : State := { s with r := w }

/-- `DRV1 <- v1`, `DRV0 <- v0`. -/
def State.withFields (s : State) (v1 v0 : Word32) : State := { s with drv1 := some v1, drv0 := some v0 }

/-- `PH + 1` (10_state.md R15). At 15 the sum does not fit the 4 bits and the spec states no result: a free value
(log entry 4), never reached in an invocation. -/
def nextPhase (ph : OpIndex) : OpIndex := if ph = 15 then Config.phaseAfterLast else ph + 1

/-- `PH <- PH + 1`, with which every operation ends (R15). -/
def State.advance (s : State) : State := { s with ph := nextPhase s.ph }

/-- The operation `PH` selects (R15, R44), or why there is none: the invocation is over at 10 (R17) and 11 to 15
name no operation (R45). -/
def selectOp (ph : OpIndex) : Except Refusal Instr :=
  match decodeOp ph with
  | some i => .ok i
  | none => .error (if ph = 10 then .invocationOver else .reservedIndex ph)

/-- The phase index that selects the operation a byte encodes; a byte that is no OP4 word selects 15, which names
no operation (log entry 6). -/
def phaseOfByte (b : Byte) : OpIndex := if b.toNat < 16 then b.setWidth 4 else 15

/-! ### The host's part -/

/-- A buffer the block's rules hold for: the buffer itself if all 8 bytes have a value, else the all-zero input
(scenario S1 of 95_test_vectors.md) in their place. It stands for the host's duty, "put exactly 8 valid bytes in
`BUF`" (70_reset_and_hazards.md R103), in `State.withFetchWord` and nowhere else (log entry 6). -/
def Memory.readied (m : List Host.Cell) : List Host.Cell :=
  match Memory.block m with
  | some _ => m
  | none => Memory.putBlock [] #v[0, 0, 0, 0, 0, 0, 0, 0]

/-- The host writes the 8 bytes of an input to `BUF` and starts an invocation (60_exceptions.md R87 step 3): the start
state of 70_reset_and_hazards.md R101, of which nothing depends on what the machine held before (R102). -/
def State.load (_before : State) (L : Block) : State :=
  { buf := Memory.putBlock [] L, r := 0, drv1 := none, drv0 := none, ph := 0 }

/-- What the host may read: `BUF`, `DRV1`, `DRV0` once the invocation is over (10_state.md R17); `none` before that
and where an element has no value. -/
def State.result (s : State) : Option (Block × Word32 × Word32) :=
  if s.ph = 10 then
    match Memory.block s.buf, s.drv1, s.drv0 with
    | some L, some d1, some d0 => some (L, d1, d0)
    | _, _, _ => none
  else none

end Sys2Proof.Machine
end

