-- ==== Sys2Proof/Machine/Builder.lean ====
section
/-! DEFINITION. The BitVector Builder (40_builder.md): the meaning of BUILD. -/

namespace Sys2Proof.Machine

/-- BUILD (R51): read the 8 bytes of `BUF` and `R <- unpack(BUF)`. The zeroing of `R` before the loop cannot be
observed, since the loop writes all 64 bits. Refused if a byte of `BUF` has no value (R52). -/
def execBuild (s : State) : Host.Outcome State Fault Refusal :=
  andThen (memRead s 0 8) (fun L => .next (s.withR (unpack L)).advance)

end Sys2Proof.Machine
end

