-- ==== Sys2Proof/Machine/Packer.lean ====
section
/-! DEFINITION. The packer (43_packer.md): the meanings of PACK and REPORT. -/

namespace Sys2Proof.Machine

/-- PACK (R76): `BUF <- pack(R)`, all 8 bytes; what `BUF` held is overwritten and need not have a value. -/
def execPack (s : State) : Host.Outcome State Fault Refusal :=
  andThen (memWrite s 0 8 (pack s.r)) (fun s' => .next s'.advance)

/-- REPORT (R77): `DRV1` from bytes 0 to 3, `DRV0` from bytes 4 to 7. Refused if a byte of `BUF` has no value
(10_state.md R16). -/
def execReport (s : State) : Host.Outcome State Fault Refusal :=
  andThen (memRead s 0 8) (fun L => .next (s.withFields (field1 L) (field0 L)).advance)

end Sys2Proof.Machine
end

