-- ==== Sys2Proof/Machine/Flags.lean ====
section
/-! DEFINITION. The block has no flags or condition codes (10_state.md R19), so no operation computes one. What it
computes in their stead are its check bits: the six code bits and the overall parity (42_parity_generator.md). -/

namespace Sys2Proof.Machine

/-- `CODEi`: clear `R[i]`, so that the self-term is zero (R67, R105), then `R[i] <- XOR{ R[j] : j in cover(i) }`. -/
def setCodeBit (i : Nat) (r : Word64) : Word64 :=
  let cleared := writeBit r i false
  writeBit cleared i (xorOver (cover i) cleared)

/-- PARITY: clear `R[0]`, then `R[0] <- XOR{ R[j] : j in 0..63 }` (R66). -/
def setParityBit (r : Word64) : Word64 :=
  let cleared := writeBit r 0 false
  writeBit cleared 0 (xorOver (List.range 64) cleared)

end Sys2Proof.Machine
end

