-- ==== Sys2Proof/Machine/ParityGenerator.lean ====
section
/-! DEFINITION. The XOR-tree parity generator (42_parity_generator.md): the meanings of CODE1 to CODE32 and PARITY.
Each writes one bit of `R`, advances `PH`, touches nothing else and raises nothing. -/

namespace Sys2Proof.Machine

/-- The shape all six CODE operations share. -/
def codeBitOp (i : Nat) (s : State) : Host.Outcome State Fault Refusal :=
  .next (s.withR (setCodeBit i s.r)).advance

/-- CODE1 (R60). -/
def execCode1 (s : State) : Host.Outcome State Fault Refusal := codeBitOp 1 s

/-- CODE2 (R61). -/
def execCode2 (s : State) : Host.Outcome State Fault Refusal := codeBitOp 2 s

/-- CODE4 (R62). -/
def execCode4 (s : State) : Host.Outcome State Fault Refusal := codeBitOp 4 s

/-- CODE8 (R63). -/
def execCode8 (s : State) : Host.Outcome State Fault Refusal := codeBitOp 8 s

/-- CODE16 (R64). -/
def execCode16 (s : State) : Host.Outcome State Fault Refusal := codeBitOp 16 s

/-- CODE32 (R65). -/
def execCode32 (s : State) : Host.Outcome State Fault Refusal := codeBitOp 32 s

/-- PARITY (R66): the code bits it reads are those that stand in `R` when it runs. -/
def execParity (s : State) : Host.Outcome State Fault Refusal :=
  .next (s.withR (setParityBit s.r)).advance

end Sys2Proof.Machine
end

