-- ==== Sys2Proof/Machine/Dispatch.lean ====
section
/-! DEFINITION. `exec`: the one match that gives each operation its meaning. -/

namespace Sys2Proof.Machine

def exec (i : Instr) (s : State) : Host.Outcome State Fault Refusal :=
  match i with
  | .build => Sys2Proof.Machine.execBuild s
  | .code1 => Sys2Proof.Machine.execCode1 s
  | .code2 => Sys2Proof.Machine.execCode2 s
  | .code4 => Sys2Proof.Machine.execCode4 s
  | .code8 => Sys2Proof.Machine.execCode8 s
  | .code16 => Sys2Proof.Machine.execCode16 s
  | .code32 => Sys2Proof.Machine.execCode32 s
  | .parity => Sys2Proof.Machine.execParity s
  | .pack => Sys2Proof.Machine.execPack s
  | .report => Sys2Proof.Machine.execReport s

end Sys2Proof.Machine
end

