-- ==== Sys2Proof/Machine/Step.lean ====
section
/-! DEFINITION. One step: the operation `PH` selects takes effect (10_state.md R15). The sequence is wired; nothing is
fetched from memory (20_memory.md R33). -/

namespace Sys2Proof.Machine

/-- One operation of the canonical sequence, or the reason why `PH` selects none. -/
def step (s : State) : Host.Outcome State Fault Refusal :=
  match selectOp s.ph with
  | .ok i => exec i s
  | .error e => .refused e

/-- The state whose next operation is the one an opcode-table word encodes. The block loads no program: the operation
that runs next is the one `PH` numbers, so the word is placed in `PH`. The block's rules hold only once the host has
put 8 bytes in `BUF` (70_reset_and_hazards.md R103), so a buffer that has no value is given an input; a buffer that
has one is left alone, and nothing else changes. Log entry 6. -/
def State.withFetchWord (s : State) (nbits w : Nat) : State :=
  { s with buf := Memory.readied s.buf, ph := phaseOfByte ((tableBytes nbits w).headD 0) }

end Sys2Proof.Machine
end

