-- ==== Sys2Proof/Machine/Composite.lean ====
section
/-! DEFINITION. Sequences of operations (92_eei_decisions.md D21) and the pure functions the spec gives for the two
composites: `encode` (42_parity_generator.md R68), `drvgen` (43_packer.md R79) and its closed form on the buffer
word (R81). -/

namespace Sys2Proof.Machine

/-- Run a sequence of operations in order, stopping where one stops. Each operation is total on any state in which
what it reads has a value (D21). -/
def execSeq : List Instr → State → Host.Outcome State Fault Refusal
  | [], s => .next s
  | i :: rest, s => andThen (exec i s) (execSeq rest)

/-- `encode(R)`: the register after the seven operations of ENCODE (R68). -/
def encodeReg (r : Word64) : Word64 :=
  setParityBit (setCodeBit 32 (setCodeBit 16 (setCodeBit 8 (setCodeBit 4 (setCodeBit 2 (setCodeBit 1 r))))))

/-- The output bytes of an invocation: `pack(encode(unpack(L)))` (R79). -/
def drvgenBytes (L : Block) : Block := pack (encodeReg (unpack L))

/-- `drvgen(L) = (OUT, DRV1, DRV0)` (R79). -/
def drvgen (L : Block) : Block × Word32 × Word32 :=
  (drvgenBytes L, field1 (drvgenBytes L), field0 (drvgenBytes L))

/-- `par(x) = popcount(x) mod 2` (R81), as a bit. -/
def par (x : Word64) : Bool := popcount x % 2 == 1

/-- The bit `v` at word bit `p`. -/
def bitAt (v : Bool) (p : Nat) : Word64 := (if v then 1#64 else 0#64) <<< p

/-- The closed form of the output word `OUTV` on the input word `V` (R81). -/
def outputWord (v : Word64) : Word64 :=
  let c1 := par (v &&& 0x5555555555555515)
  let c2 := par (v &&& 0x3333333333333313)
  let c4 := par (v &&& 0x0F0F0F0F0F0F0F07)
  let c8 := par (v &&& 0xFF00FF00FF007F00)
  let c16 := par (v &&& 0xFFFF0000FF7F0000)
  let c32 := par (v &&& 0xFFFFFF7F00000000)
  let p := par (v &&& 0xFFFFFF7FFF7F7F17) ^^ c1 ^^ c2 ^^ c4 ^^ c8 ^^ c16 ^^ c32
  (v &&& 0xFFFFFF7FFF7F7F17) ||| bitAt c32 39 ||| bitAt c16 23 ||| bitAt c8 15 ||| bitAt p 7
    ||| bitAt c1 6 ||| bitAt c2 5 ||| bitAt c4 3

end Sys2Proof.Machine
end

