-- ==== Sys2Proof/Machine/FrontEnd.lean ====
section
/-! DEFINITION. The host's front end (60_exceptions.md R87 to R92, 30_encoding.md R42 and R43, 43_packer.md R78):
its arguments, its checks in order, the hex text of the input and the rows of the report. It is outside the block
(00_scope.md R4) and no step uses it; it says which inputs the block can see and how its result is shown. Characters
are lists of `Char`, so that the kernel evaluates them. -/

namespace Sys2Proof.Machine

/-- The value of a hex digit `0-9`, `A-F`, `a-f` (R43). -/
def hexValue (c : Char) : Option (BitVec 4) :=
  let n := c.toNat
  if 48 ≤ n ∧ n ≤ 57 then some (BitVec.ofNat 4 (n - 48))
  else if 65 ≤ n ∧ n ≤ 70 then some (BitVec.ofNat 4 (n - 55))
  else if 97 ≤ n ∧ n ≤ 102 then some (BitVec.ofNat 4 (n - 87))
  else none

/-- The lowercase hex digit of a value (R42). -/
def hexDigit (v : BitVec 4) : Char :=
  if v.toNat < 10 then Char.ofNat (48 + v.toNat) else Char.ofNat (87 + v.toNat)

/-- A byte as two digits, the high nibble first (R43; log entry 12). -/
def byteText (b : Byte) : List Char := [hexDigit (b.extractLsb' 4 4), hexDigit (b.extractLsb' 0 4)]

/-- The 16 digits of a block, byte 0 first: the hex form of `V` (R40, R43). -/
def blockText (L : Block) : List Char := L.toList.flatMap byteText

/-- The 8 lowercase hex digits of a field, the most significant first (R42). -/
def fieldText (w : Word32) : List Char :=
  [7, 6, 5, 4, 3, 2, 1, 0].map (fun t => hexDigit (w.extractLsb' (4 * t) 4))

/-- Pairs of digits as bytes, `none` at a character that is no hex digit or at an odd length. -/
def hexBytes : List Char → Option (List Byte)
  | [] => some []
  | [_] => none
  | c :: d :: rest =>
    match hexValue c, hexValue d, hexBytes rest with
    | some hi, some lo, some bytes => some ((hi ++ lo : BitVec 8) :: bytes)
    | _, _, _ => none

/-- The block of exactly 8 bytes, `none` for any other number of bytes. -/
def blockOfBytes (bytes : List Byte) : Option Block :=
  match bytes with
  | [b0, b1, b2, b3, b4, b5, b6, b7] => some #v[b0, b1, b2, b3, b4, b5, b6, b7]
  | _ => none

/-- `Option.bind` of the two: 16 hex digits as the 8 input bytes (R43). -/
def parseInput (text : List Char) : Option Block :=
  match hexBytes text with
  | some bytes => blockOfBytes bytes
  | none => none

/-- The host's three errors (R90). -/
inductive HostError where
  /-- More than one argument. -/
  | usage
  /-- One argument whose length is not 16. -/
  | length
  /-- One argument of length 16 with a character outside `[0-9A-Fa-f]`. -/
  | invalidCharacter
  deriving DecidableEq, Repr

/-- What the host does with its arguments (R88). -/
inductive HostAction where
  /-- No argument: a random 8-byte input (R89). -/
  | randomInput
  /-- `--help` or `-h`: the usage text. -/
  | help
  /-- A valid hex argument: one invocation on these bytes. -/
  | givenInput (L : Block)
  /-- An error, reported before any computation (R92). -/
  | reject (e : HostError)
  deriving DecidableEq, Repr

/-- The host's checks in the order of R91: argument count, then help, then length, then characters. Log entry 13. -/
def hostAction (args : List (List Char)) : HostAction :=
  match args with
  | [] => .randomInput
  | [a] =>
    if a = ['-', '-', 'h', 'e', 'l', 'p'] ∨ a = ['-', 'h'] then .help
    else if a.length ≠ 16 then .reject .length
    else
      match parseInput a with
      | some L => .givenInput L
      | none => .reject .invalidCharacter
  | _ => .reject .usage

/-- The input the block is invoked on, if it is invoked at all. `draw` is the random generator's bytes, of which
nothing may be assumed (R89; log entry 14). -/
def hostInput (args : List (List Char)) (draw : Block) : Option Block :=
  match hostAction args with
  | .randomInput => some draw
  | .givenInput L => some L
  | .help => none
  | .reject _ => none

/-- The host's exit status: 1 for each of the three errors, 0 otherwise (R88, R90; log entry 13). -/
def hostStatus (args : List (List Char)) : Nat :=
  match hostAction args with
  | .reject _ => 1
  | .randomInput => 0
  | .givenInput _ => 0
  | .help => 0

/-- One row of the report: name, bit range, value (R78). Log entry 15. -/
structure ReportRow where
  name : List Char
  bits : List Char
  value : List Char
  deriving DecidableEq, Repr

/-- The two rows, DRV1 first (R78). The header is `NAME | BITS | VALUE`; the layout is not given. -/
def reportRows (drv1 drv0 : Word32) : List ReportRow :=
  [ ⟨['D', 'R', 'V', '1'], ['6', '3', '-', '3', '2'], fieldText drv1⟩,
    ⟨['D', 'R', 'V', '0'], ['3', '1', '-', '0'], fieldText drv0⟩ ]

/-- The report of a state at the end of an invocation (R87 step 5). -/
def State.report (s : State) : Option (List ReportRow) :=
  match s.result with
  | some (_, d1, d0) => some (reportRows d1 d0)
  | none => none

end Sys2Proof.Machine
end

