-- ==== Sys2Proof/Safety.lean ====
section
/-! DEFINITION. The terms in which claims are stated: a codeword, the invariant of an invocation, the states of one
invocation, and a safe state. -/

namespace Sys2Proof.Machine

/-- The code-bit equation of position `i`: the XOR of all bits of its cover is 0 (42_parity_generator.md R72 item 2). -/
def codeEquation (i : Nat) (r : Word64) : Prop := xorOver (cover i) r = false

/-- Even parity over the whole register (R72 item 1). -/
def parityEquation (r : Word64) : Prop := xorOver (List.range 64) r = false

/-- A valid codeword (30_encoding.md R36). -/
def codeword (r : Word64) : Prop := (∀ i ∈ codePositions, codeEquation i r) ∧ parityEquation r

/-- What holds of the state at each phase of an invocation, whatever its input. -/
structure PhaseInv (s : State) : Prop where
  /-- The buffer keeps its canonical form. -/
  wf : Memory.wf s.buf
  /-- `PH` never exceeds 10 (10_state.md R15). -/
  phLe : s.ph.toNat ≤ 10
  /-- `R` holds 64 zeros until BUILD writes it (R16). -/
  zeroAtStart : s.ph = 0 → s.r = 0
  /-- From BUILD on the buffer has a value, and `R` holds its data bits (R12). -/
  dataBits : 1 ≤ s.ph.toNat → ∃ L, Memory.block s.buf = some L ∧
    ∀ k ∈ dataPositions, s.r.getLsbD k = (unpack L).getLsbD k
  /-- Each code bit is right once its CODE operation has run (30_encoding.md R36). -/
  codeBits : ∀ e < 6, e + 2 ≤ s.ph.toNat → codeEquation (2 ^ e) s.r
  /-- The overall parity is even once PARITY has run. -/
  evenParity : 8 ≤ s.ph.toNat → parityEquation s.r
  /-- From PACK on the buffer holds the packed register. -/
  packed : 9 ≤ s.ph.toNat → Memory.block s.buf = some (pack s.r)
  /-- The fields have no value until REPORT (R16). -/
  fieldsUnset : s.ph.toNat ≤ 9 → s.drv1 = none ∧ s.drv0 = none
  /-- REPORT leaves the two halves of the packed buffer in the fields. -/
  fieldsSet : s.ph = 10 → s.drv1 = some (field1 (pack s.r)) ∧ s.drv0 = some (field0 (pack s.r))

/-- The register of the invocation on input `L` when `PH` is `p`, by the rules of the operations already run. -/
def phaseReg (L : Block) : Nat → Word64
  | 0 => 0
  | 1 => unpack L
  | 2 => setCodeBit 1 (phaseReg L 1)
  | 3 => setCodeBit 2 (phaseReg L 2)
  | 4 => setCodeBit 4 (phaseReg L 3)
  | 5 => setCodeBit 8 (phaseReg L 4)
  | 6 => setCodeBit 16 (phaseReg L 5)
  | 7 => setCodeBit 32 (phaseReg L 6)
  | 8 => setParityBit (phaseReg L 7)
  | p + 9 => phaseReg L (p + 8)

/-- The state of the invocation on input `L` when `PH` is `p`: PACK, at phase 8, replaces the input by the output, and
REPORT, at phase 9, sets the fields. -/
def invocationState (L : Block) (p : Nat) : State :=
  { buf := Memory.putBlock [] (if p ≤ 8 then L else drvgenBytes L)
    r := phaseReg L p
    drv1 := if p ≤ 9 then none else some (field1 (drvgenBytes L))
    drv0 := if p ≤ 9 then none else some (field0 (drvgenBytes L))
    ph := BitVec.ofNat 4 p }

/-- A state is safe if the machine goes on from it or the invocation is over. -/
def safe (s : State) : Prop := (∃ t, step s = .next t) ∨ s.ph = 10

end Sys2Proof.Machine
end

