-- ==== Sys2Proof/Certificates/Slice0/Obligations.lean ====
section
/-! DEFINITION. The statements for the provers, each from the numbered rules of spec/. The vocabulary comes first:
what a step leaves alone, the input sets of the code bits as 41_position_decoder.md R57 lists them, and XOR trees. -/

namespace Sys2Proof.Claims

open Sys2Proof.Machine

/-- Every byte of the buffer reads as before. -/
def sameBuffer (s t : State) : Prop := ∀ a, Memory.read t.buf a = Memory.read s.buf a

/-- Both output fields are as before. -/
def sameFields (s t : State) : Prop := t.drv1 = s.drv1 ∧ t.drv0 = s.drv0

/-- `PH <- PH + 1` (10_state.md R15), wherever the sum fits the 4 bits of `PH`. -/
def phaseAdvances (s t : State) : Prop := s.ph.toNat < 15 → t.ph.toNat = s.ph.toNat + 1

/-- Two registers agree on the 57 data positions. -/
def sameData (r r' : Word64) : Prop := ∀ k ∈ dataPositions, r.getLsbD k = r'.getLsbD k

/-- `inputs(1)`, the 31 data positions of R57. -/
def inputSet1 : List Nat :=
  [3, 5, 7, 9, 11, 13, 15, 17, 19, 21, 23, 25, 27, 29, 31, 33, 35, 37, 39, 41, 43, 45, 47, 49, 51,
   53, 55, 57, 59, 61, 63]

/-- `inputs(2)`, the 31 data positions of R57. -/
def inputSet2 : List Nat :=
  [3, 6, 7, 10, 11, 14, 15, 18, 19, 22, 23, 26, 27, 30, 31, 34, 35, 38, 39, 42, 43, 46, 47, 50,
   51, 54, 55, 58, 59, 62, 63]

/-- `inputs(4)`, the 31 data positions of R57. -/
def inputSet4 : List Nat :=
  [5, 6, 7, 12, 13, 14, 15, 20, 21, 22, 23, 28, 29, 30, 31, 36, 37, 38, 39, 44, 45, 46, 47, 52,
   53, 54, 55, 60, 61, 62, 63]

/-- `inputs(8)`, the 31 data positions of R57. -/
def inputSet8 : List Nat :=
  [9, 10, 11, 12, 13, 14, 15, 24, 25, 26, 27, 28, 29, 30, 31, 40, 41, 42, 43, 44, 45, 46, 47, 56,
   57, 58, 59, 60, 61, 62, 63]

/-- `inputs(16)`, the 31 data positions of R57. -/
def inputSet16 : List Nat :=
  [17, 18, 19, 20, 21, 22, 23, 24, 25, 26, 27, 28, 29, 30, 31, 48, 49, 50, 51, 52, 53, 54, 55, 56,
   57, 58, 59, 60, 61, 62, 63]

/-- `inputs(32)`, the 31 data positions of R57. -/
def inputSet32 : List Nat :=
  [33, 34, 35, 36, 37, 38, 39, 40, 41, 42, 43, 44, 45, 46, 47, 48, 49, 50, 51, 52, 53, 54, 55, 56,
   57, 58, 59, 60, 61, 62, 63]

/-- The 31 data positions whose index has an even number of 1 bits (42_parity_generator.md R71). -/
def evenPositions : List Nat :=
  [3, 5, 6, 9, 10, 12, 15, 17, 18, 20, 23, 24, 27, 29, 30, 33, 34, 36, 39, 40, 43, 45, 46, 48, 51,
   53, 54, 57, 58, 60, 63]

/-- What the rule of a check-bit operation says (42_parity_generator.md R60 to R66): index `op` names it; from every
state it runs; register bit `k` becomes the XOR of `terms`, which is the parity of `RW & rwMask` and of `V & vMask`
for the buffer word `V` the register packs to; the bit lands at bit `bit` of byte `byte`; every other bit of `R`,
the buffer and the fields are as before. -/
def checkBitEffect (i : Instr) (op : OpIndex) (k : Nat) (terms : List Nat) (rwMask vMask : Word64)
    (byte bit : Nat) : Prop :=
  decodeOp op = some i ∧ ∀ s : State, ∃ t, exec i s = .next t ∧
    t.r.getLsbD k = xorOver terms s.r ∧
    (t.r.getLsbD k).toNat = popcount (s.r &&& rwMask) % 2 ∧
    (t.r.getLsbD k).toNat = popcount (bufferWord (pack s.r) &&& vMask) % 2 ∧
    byteBit (pack t.r) byte bit = t.r.getLsbD k ∧
    (∀ j < 64, j ≠ k → t.r.getLsbD j = s.r.getLsbD j) ∧
    sameBuffer s t ∧ sameFields s t ∧ phaseAdvances s t

/-- A tree of two-input XOR gates over register bits (42_parity_generator.md R74). -/
inductive XorTree where
  | leaf (j : Nat)
  | node (a b : XorTree)

/-- The register indices at the inputs of a tree. -/
def XorTree.leaves : XorTree → List Nat
  | .leaf j => [j]
  | .node a b => a.leaves ++ b.leaves

/-- The bit at the output of a tree. -/
def XorTree.eval (r : Word64) : XorTree → Bool
  | .leaf j => r.getLsbD j
  | .node a b => a.eval r ^^ b.eval r

/-- The seven computed bits as 30_encoding.md R39 lists them: register index, byte, bit in the byte, bit of `V`. -/
def computedBits : List (Nat × Nat × Nat × Nat) :=
  [(0, 7, 7, 7), (1, 7, 6, 6), (2, 7, 5, 5), (4, 7, 3, 3), (8, 6, 7, 15), (16, 5, 7, 23), (32, 3, 7, 39)]

/-- A hex digit of either case that stands for the same value as `c`. -/
def sameDigit (c d : Char) : Prop := hexValue c ≠ none ∧ hexValue c = hexValue d

end Sys2Proof.Claims

open Sys2Proof Sys2Proof.Machine Sys2Proof.Claims

/-! ### Decoding and the sequence -/

/-- 10_state.md R15, 30_encoding.md R44: the ten indices and their operations, in the order of the sequence, and no
operation at 10 to 15 (R45). -/
def Obligations.OperationIndexTable : Prop :=
  (List.range 10).map (fun n => decodeOp (BitVec.ofNat 4 n)) =
    [some .build, some .code1, some .code2, some .code4, some .code8, some .code16, some .code32,
     some .parity, some .pack, some .report] ∧
  (∀ op : OpIndex, 10 ≤ op.toNat → decodeOp op = none)

/-- Decoding and encoding agree, for one operation followed by any bytes and for whole sequences of indices, in both
directions (30_encoding.md R44). The byte form of an index is the model's choice (log entry 6). -/
def Obligations.DecodeEncodeAgree : Prop :=
  (∀ (i : Instr) (rest : List Byte), i.wf = true → decode (encode i ++ rest) = .ok (i, rest)) ∧
  (∀ (bytes rest : List Byte) (i : Instr), decode bytes = .ok (i, rest) → bytes = encode i ++ rest) ∧
  (∀ ops : List Instr, decodeProgram (encodeProgram ops) = .ok ops) ∧
  (∀ (indices : List OpIndex) (ops : List Instr), decodeProgram indices = .ok ops → encodeProgram ops = indices)

/-- A step at a phase that numbers an operation is that operation (10_state.md R15), and nothing is added around it. -/
def Obligations.StepRunsSelectedOperation : Prop :=
  ∀ (s : State) (i : Instr), decodeOp s.ph = some i → step s = exec i s

/-- A placed table word runs as the operation it decodes to; a buffer that has a value, the register and the fields
stay as they are. The byte form and the placing are the model's choice (log entry 6). -/
def Obligations.PlacedWordRuns : Prop :=
  ∀ (s : State) (nbits w : Nat) (i : Instr), decodeTableWord nbits w = some i →
    step (s.withFetchWord nbits w) = exec i (s.withFetchWord nbits w) ∧
    (s.withFetchWord nbits w).r = s.r ∧ sameFields s (s.withFetchWord nbits w) ∧
    (∀ L, Memory.block s.buf = some L → (s.withFetchWord nbits w).buf = s.buf)

/-- No operation is left at `PH` = 10 (10_state.md R15, R17) and none is named by 11 to 15 (30_encoding.md R45): the
step is refused. The names of the refusals are the model's (log entry 5). -/
def Obligations.StepStopsOutsideSequence : Prop :=
  ∀ s : State, (s.ph.toNat = 10 → step s = .refused .invocationOver) ∧
    (10 < s.ph.toNat → step s = .refused (.reservedIndex s.ph))

/-- Every step that goes on does exactly one thing to `PH`, adds 1 to it, from a phase below 10 (R15, R97). -/
def Obligations.EveryStepAdvancesPhase : Prop :=
  ∀ s t : State, step s = .next t → s.ph.toNat ≤ 9 ∧ t.ph.toNat = s.ph.toNat + 1

/-! ### Reset and the start of an invocation -/

/-- 10_state.md section 8: `R` all zero and `PH` 0, and before the host's write no value in `BUF`, `DRV1`, `DRV0`. -/
def Obligations.ResetHasNoValues : Prop :=
  State.reset.r = 0 ∧ State.reset.ph = 0 ∧ State.reset.drv1 = none ∧ State.reset.drv0 = none ∧
  (∀ a, Memory.read State.reset.buf a = none) ∧ Memory.wf State.reset.buf

/-- 70_reset_and_hazards.md R101, R102: every invocation starts from the same state but for its input, whatever the
machine held before. -/
def Obligations.InvocationStartState : Prop :=
  ∀ (s s' : State) (L : Block),
    (s.load L).r = 0 ∧ (s.load L).drv1 = none ∧ (s.load L).drv0 = none ∧ (s.load L).ph = 0 ∧
    (∀ (i : Nat) (h : i < 8), Memory.read (s.load L).buf i = some L[i]) ∧
    (∀ a, 8 ≤ a → Memory.read (s.load L).buf a = none) ∧
    s.load L = s'.load L

/-! ### The operations -/

/-- 40_builder.md R51: BUILD. -/
def Obligations.BuildExpandsBuffer : Prop :=
  decodeOp 0 = some .build ∧
  ∀ (s : State) (L : Block), (∀ (i : Nat) (h : i < 8), Memory.read s.buf i = some L[i]) →
    ∃ t, exec .build s = .next t ∧ t.r = unpack L ∧
      (∀ (i : Nat) (h : i < 8), ∀ m < 8, t.r.getLsbD (56 - 8 * i + m) = L[i].getLsbD (7 - m)) ∧
      sameBuffer s t ∧ sameFields s t ∧ phaseAdvances s t

/-- BUILD and REPORT have no result where a byte of `BUF` has no value (10_state.md R16, 40_builder.md R52, U2); the
model refuses them. -/
def Obligations.ReadOfNoValueIsRefused : Prop :=
  ∀ s : State, (∃ i < 8, Memory.read s.buf i = none) →
    exec .build s = .refused .bufferWithoutValue ∧ exec .report s = .refused .bufferWithoutValue

/-- 42_parity_generator.md R60: CODE1. -/
def Obligations.Code1WritesItsBit : Prop :=
  checkBitEffect .code1 1 1 inputSet1 0xAAAAAAAAAAAAAAA8 0x5555555555555515 7 6

/-- 42_parity_generator.md R61: CODE2. -/
def Obligations.Code2WritesItsBit : Prop :=
  checkBitEffect .code2 2 2 inputSet2 0xCCCCCCCCCCCCCCC8 0x3333333333333313 7 5

/-- 42_parity_generator.md R62: CODE4. -/
def Obligations.Code4WritesItsBit : Prop :=
  checkBitEffect .code4 3 4 inputSet4 0xF0F0F0F0F0F0F0E0 0x0F0F0F0F0F0F0F07 7 3

/-- 42_parity_generator.md R63: CODE8. -/
def Obligations.Code8WritesItsBit : Prop :=
  checkBitEffect .code8 4 8 inputSet8 0xFF00FF00FF00FE00 0xFF00FF00FF007F00 6 7

/-- 42_parity_generator.md R64: CODE16. -/
def Obligations.Code16WritesItsBit : Prop :=
  checkBitEffect .code16 5 16 inputSet16 0xFFFF0000FFFE0000 0xFFFF0000FF7F0000 5 7

/-- 42_parity_generator.md R65: CODE32. -/
def Obligations.Code32WritesItsBit : Prop :=
  checkBitEffect .code32 6 32 inputSet32 0xFFFFFFFE00000000 0xFFFFFF7F00000000 3 7

/-- 42_parity_generator.md R66: PARITY, over the code bits as they stand when it runs. -/
def Obligations.ParityWritesBitZero : Prop :=
  checkBitEffect .parity 7 0 (List.range' 1 63) 0xFFFFFFFFFFFFFFFE 0xFFFFFFFFFFFFFF7F 7 7

/-- 43_packer.md R76: PACK. -/
def Obligations.PackStoresRegister : Prop :=
  decodeOp 8 = some .pack ∧
  ∀ s : State, ∃ t, exec .pack s = .next t ∧
    Memory.block t.buf = some (pack s.r) ∧
    (∀ i < 8, ∃ b : Byte, Memory.read t.buf i = some b ∧
      b.toNat = ((List.range 8).map (fun m => (s.r.getLsbD (56 - 8 * i + m)).toNat * 2 ^ (7 - m))).sum) ∧
    (∀ a, 8 ≤ a → Memory.read t.buf a = Memory.read s.buf a) ∧
    t.r = s.r ∧ sameFields s t ∧ phaseAdvances s t

/-- 43_packer.md R77: REPORT. The fields are formed from the packed bytes, as R77 and R41 say (log entry 16). -/
def Obligations.ReportSplitsBuffer : Prop :=
  decodeOp 9 = some .report ∧
  ∀ (s : State) (L : Block), (∀ (i : Nat) (h : i < 8), Memory.read s.buf i = some L[i]) →
    ∃ t d1 d0, exec .report s = .next t ∧ t.drv1 = some d1 ∧ t.drv0 = some d0 ∧
      d1.toNat = L[0].toNat * 2 ^ 24 + L[1].toNat * 2 ^ 16 + L[2].toNat * 2 ^ 8 + L[3].toNat ∧
      d0.toNat = L[4].toNat * 2 ^ 24 + L[5].toNat * 2 ^ 16 + L[6].toNat * 2 ^ 8 + L[7].toNat ∧
      bufferWord L = d1 ++ d0 ∧
      t.r = s.r ∧ sameBuffer s t ∧ phaseAdvances s t

/-- 10_state.md R12: no operation but BUILD writes a data position, and what BUILD put there is there when PACK reads. -/
def Obligations.DataBitsAreNeverRewritten : Prop :=
  (∀ (i : Instr) (s t : State), i ≠ .build → exec i s = .next t → sameData t.r s.r) ∧
  (∀ (s : State) (L : Block), Memory.block s.buf = some L →
    ∃ t, execSeq (.build :: encodeOps) s = .next t ∧ sameData t.r (unpack L))

/-- 60_exceptions.md R85: no operation and no step raises a fault, and an operation whose buffer has a value runs, in
every state. -/
def Obligations.NoOperationFaults : Prop :=
  (∀ (i : Instr) (s : State) (e : Fault), exec i s ≠ .fault e) ∧
  (∀ (s : State) (e : Fault), step s ≠ .fault e) ∧
  (∀ (i : Instr) (s : State) (L : Block), Memory.block s.buf = some L → ∃ t, exec i s = .next t) ∧
  (∀ (s : State) (L : Block), Memory.block s.buf = some L → s.ph.toNat < 10 → ∃ t, step s = .next t)

/-- 20_memory.md R25, D8: `MemRead` and `MemWrite` have a meaning for `(0, 8)` and for nothing else; an access that
reaches beyond the eight bytes stops with a fault. Which stop it is is the model's choice (log entry 11). -/
def Obligations.OnlyWholeAccessHasMeaning : Prop :=
  ∀ (s : State) (a n : Nat) (L : Block),
    (¬ (a = 0 ∧ n = 8) → (∀ M, memRead s a n ≠ .next M) ∧ (∀ t, memWrite s a n L ≠ .next t)) ∧
    (8 < a + n → memRead s a n = .fault (.noSuchAddress a) ∧ memWrite s a n L = .fault (.noSuchAddress a)) ∧
    (∃ t, memWrite s 0 8 L = .next t ∧ memRead t 0 8 = .next L)

/-! ### Bytes, bits and words -/

/-- 40_builder.md R50: the two forms of `unpack`, that it is a bijection whose inverse is `pack`, and that it turns
`V` into `RW` by reversing the bit order inside each byte. -/
def Obligations.UnpackMapsEveryBit : Prop :=
  (∀ (L : Block) (i : Nat) (h : i < 8), ∀ m < 8,
    (unpack L).getLsbD (56 - 8 * i + m) = L[i].getLsbD (7 - m)) ∧
  (∀ (L : Block), ∀ k < 64, (unpack L).getLsbD k = byteBit L (7 - k / 8) (7 - k % 8)) ∧
  (∀ (L : Block), ∀ q < 8, ∀ n < 8, (unpack L).getLsbD (8 * q + n) = (bufferWord L).getLsbD (8 * q + (7 - n))) ∧
  Function.Bijective unpack ∧ Function.LeftInverse pack unpack

/-- 40_builder.md R53: the round trip, as functions and as the sequence `BUILD; PACK`. The spec marks
`unpack(pack(R)) = R` as derived from R50 and 43_packer.md R75. -/
def Obligations.UnpackThenPackIsIdentity : Prop :=
  (∀ L : Block, pack (unpack L) = L) ∧ (∀ r : Word64, unpack (pack r) = r) ∧
  (∀ (s : State) (L : Block), Memory.block s.buf = some L →
    ∃ t, execSeq [.build, .pack] s = .next t ∧ sameBuffer s t)

/-- 43_packer.md R75: `pack` bit by bit and as a number, and that it is the inverse of `unpack`. -/
def Obligations.PackReassemblesBytes : Prop :=
  (∀ (r : Word64) (i : Nat) (h : i < 8),
    (∀ m < 8, (pack r)[i].getLsbD (7 - m) = r.getLsbD (56 - 8 * i + m)) ∧
    (pack r)[i].toNat = ((List.range 8).map (fun m => (r.getLsbD (56 - 8 * i + m)).toNat * 2 ^ (7 - m))).sum) ∧
  Function.LeftInverse pack unpack ∧ Function.RightInverse pack unpack

/-- 30_encoding.md R40: the two word views, `R[k] = V[k xor 7]`, and the hex form of `V`. -/
def Obligations.WordViewsDifferByByteReversal : Prop :=
  (∀ (L : Block), ∀ k < 64, (unpack L).getLsbD k = (bufferWord L).getLsbD (k ^^^ 7)) ∧
  (∀ L : Block, (bufferWord L).toNat =
    L[0].toNat * 2 ^ 56 + L[1].toNat * 2 ^ 48 + L[2].toNat * 2 ^ 40 + L[3].toNat * 2 ^ 32 +
    L[4].toNat * 2 ^ 24 + L[5].toNat * 2 ^ 16 + L[6].toNat * 2 ^ 8 + L[7].toNat) ∧
  (∀ r : Word64, r.toNat = ((List.range 64).map (fun k => (r.getLsbD k).toNat * 2 ^ k)).sum) ∧
  (∀ L : Block, blockText L =
    (List.range 16).map (fun n => hexDigit ((bufferWord L).extractLsb' (60 - 4 * n) 4)))

/-- 30_encoding.md R41: the fields byte by byte, as halves of `V`, and in register indices. -/
def Obligations.FieldBitsAreRegisterBits : Prop :=
  (∀ L : Block,
    (field1 L).extractLsb' 24 8 = L[0] ∧ (field1 L).extractLsb' 16 8 = L[1] ∧
    (field1 L).extractLsb' 8 8 = L[2] ∧ (field1 L).extractLsb' 0 8 = L[3] ∧
    (field0 L).extractLsb' 24 8 = L[4] ∧ (field0 L).extractLsb' 16 8 = L[5] ∧
    (field0 L).extractLsb' 8 8 = L[6] ∧ (field0 L).extractLsb' 0 8 = L[7] ∧
    field1 L = (bufferWord L).extractLsb' 32 32 ∧ field0 L = (bufferWord L).extractLsb' 0 32) ∧
  (∀ (r : Word64), ∀ t < 32,
    (field0 (pack r)).getLsbD t = r.getLsbD (t ^^^ 7) ∧
    (field1 (pack r)).getLsbD t = r.getLsbD (32 + (t ^^^ 7)))

/-- 30_encoding.md R39: where the seven computed bits sit in the bytes, in `V` and in the fields, and the two masks. -/
def Obligations.ComputedBitsInBuffer : Prop :=
  (∀ r : Word64, ∀ c ∈ computedBits,
    byteBit (pack r) c.2.1 c.2.2.1 = r.getLsbD c.1 ∧
    (bufferWord (pack r)).getLsbD c.2.2.2 = r.getLsbD c.1 ∧
    (if c.1 < 32 then (field0 (pack r)).getLsbD c.2.2.2 else (field1 (pack r)).getLsbD (c.2.2.2 - 32))
      = r.getLsbD c.1) ∧
  (∀ (i : Nat) (h : i < 8), ∀ b < 8,
    (computedMask[i].getLsbD b = true ↔ classOf (63 - 8 * i - b) ≠ .data) ∧
    (dataMask[i].getLsbD b = true ↔ classOf (63 - 8 * i - b) = .data))

/-! ### The bit-position decoder -/

/-- 41_position_decoder.md R55: `class`, its form over the binary digits of the index, and the counts 1, 6 and 57. The
spec marks the form over the binary digits as its own inference ("derived: a positive integer is a power of two
exactly when its binary form has one 1 bit"). -/
def Obligations.ClassOfEveryIndex : Prop :=
  (∀ k < 64, classOf k = if k = 0 then .parity else if k ∈ [1, 2, 4, 8, 16, 32] then .code else .data) ∧
  (∀ k < 64, (classOf k = .parity ↔ popcount (BitVec.ofNat 6 k) = 0) ∧
    (classOf k = .code ↔ popcount (BitVec.ofNat 6 k) = 1) ∧
    (classOf k = .data ↔ 2 ≤ popcount (BitVec.ofNat 6 k))) ∧
  ((List.range 64).filter (fun k => classOf k = .parity)).length = 1 ∧
  ((List.range 64).filter (fun k => classOf k = .code)).length = 6 ∧
  ((List.range 64).filter (fun k => classOf k = .data)).length = 57

/-- 41_position_decoder.md R57: the six input sets in full, with their masks over `RW` and over `V`. -/
def Obligations.InputSetsInFull : Prop :=
  inputs 1 = inputSet1 ∧ inputs 2 = inputSet2 ∧ inputs 4 = inputSet4 ∧ inputs 8 = inputSet8 ∧
  inputs 16 = inputSet16 ∧ inputs 32 = inputSet32 ∧
  (∀ e < 6, ∀ j < 64, j ∈ inputs (2 ^ e) ↔ j.testBit e = true ∧ j ≠ 2 ^ e) ∧
  (∀ i ∈ codePositions, (inputs i).length = 31) ∧
  codePositions.map (fun i => ((inputs i).map (fun k => 2 ^ k)).sum) =
    [0xAAAAAAAAAAAAAAA8, 0xCCCCCCCCCCCCCCC8, 0xF0F0F0F0F0F0F0E0, 0xFF00FF00FF00FE00, 0xFFFF0000FFFE0000,
     0xFFFFFFFE00000000] ∧
  codePositions.map (fun i => ((inputs i).map (fun k => 2 ^ (k ^^^ 7))).sum) =
    [0x5555555555555515, 0x3333333333333313, 0x0F0F0F0F0F0F0F07, 0xFF00FF00FF007F00, 0xFFFF0000FF7F0000,
     0xFFFFFF7F00000000]

/-- 41_position_decoder.md R58: what the rest of the spec relies on. -/
def Obligations.CoverProperties : Prop :=
  (∀ i ∈ codePositions, ∀ j < i, i &&& j = 0) ∧
  (∀ e < 6, ∀ j < 64, j ∈ cover (2 ^ e) ↔ j.testBit e = true) ∧
  (∀ i ∈ codePositions, ∀ j ∈ inputs i, classOf j = .data) ∧
  (∀ j ∈ dataPositions, (∀ e < 6, j ∈ inputs (2 ^ e) ↔ j.testBit e = true) ∧
    (codePositions.filter (fun i => decide (j ∈ inputs i))).length = popcount (BitVec.ofNat 6 j) ∧
    2 ≤ popcount (BitVec.ofNat 6 j) ∧ popcount (BitVec.ofNat 6 j) ≤ 6 ∧
    (codePositions.filter (fun i => decide (j ∈ inputs i))).sum = j) ∧
  (∀ j ∈ dataPositions ++ codePositions, j ∈ List.range' 1 63)

/-! ### ENCODE -/

/-- 42_parity_generator.md R68: ENCODE as a sequence of operations, bit by bit. -/
def Obligations.EncodeComputesCheckBits : Prop :=
  ∀ s : State, ∃ t, execSeq encodeOps s = .next t ∧ t.r = encodeReg s.r ∧
    (∀ j ∈ dataPositions, t.r.getLsbD j = s.r.getLsbD j) ∧
    (∀ e < 6, t.r.getLsbD (2 ^ e) = xorOver (dataPositions.filter (fun j => j.testBit e)) s.r) ∧
    t.r.getLsbD 0 = (xorOver dataPositions s.r ^^ t.r.getLsbD 1 ^^ t.r.getLsbD 2 ^^ t.r.getLsbD 4 ^^
      t.r.getLsbD 8 ^^ t.r.getLsbD 16 ^^ t.r.getLsbD 32) ∧
    sameBuffer s t ∧ sameFields s t ∧ (s.ph.toNat = 1 → t.ph.toNat = 8)

/-- 42_parity_generator.md R69: the seven bits at computed positions are ignored, in the register and in the buffer. -/
def Obligations.CheckBitsOfInputAreIgnored : Prop :=
  (∀ r r' : Word64, sameData r r' → encodeReg r = encodeReg r') ∧
  (∀ L L' : Block, (∀ (i : Nat) (h : i < 8), L[i] &&& dataMask[i] = L'[i] &&& dataMask[i]) →
    drvgen L = drvgen L')

/-- 42_parity_generator.md R70: the six CODE operations in any order, or all at once, give the same register; PARITY
before any one of them does not. -/
def Obligations.CodeOrderIsFree : Prop :=
  (∀ (ops : List Instr) (s : State), ops.Perm codeOps →
    execSeq (ops ++ [.parity]) s = execSeq encodeOps s) ∧
  (∀ r : Word64, encodeReg r = setParityBit
    (ofBits 64 (fun k => if k ∈ codePositions then xorOver (inputs k) r else r.getLsbD k))) ∧
  (∀ i ∈ codeOps, ∃ s, execSeq (codeOps.erase i ++ [.parity, i]) s ≠ execSeq encodeOps s)

/-- 42_parity_generator.md R71: the overall parity from the data bits alone: the 31 positions, the mask over `RW` and
the mask over `V`. -/
def Obligations.ParityFromDataBitsAlone : Prop :=
  (∀ r : Word64, (encodeReg r).getLsbD 0 = xorOver evenPositions r ∧
    ((encodeReg r).getLsbD 0).toNat = popcount (r &&& 0x9669699669969668) % 2 ∧
    ((encodeReg r).getLsbD 0).toNat = popcount (bufferWord (pack r) &&& 0x6996966996696916) % 2) ∧
  evenPositions = dataPositions.filter (fun j => popcount (BitVec.ofNat 6 j) % 2 = 0)

/-- 42_parity_generator.md R72: what holds after ENCODE. -/
def Obligations.EncodedRegisterIsCodeword : Prop :=
  ∀ r : Word64, xorOver (List.range 64) (encodeReg r) = false ∧
    (∀ i ∈ codePositions, xorOver ((List.range 64).filter (fun j => i ≤ j && (i &&& j) != 0)) (encodeReg r) = false) ∧
    encodeReg (encodeReg r) = encodeReg r ∧
    (∀ r', sameData r r' → encodeReg r' = encodeReg r)

/-- 30_encoding.md R36, 60_exceptions.md R86: a register comes back unchanged exactly when it is a valid codeword. -/
def Obligations.CodewordsAreFixedPoints : Prop :=
  ∀ r : Word64, codeword r ↔ encodeReg r = r

/-- 42_parity_generator.md R73: linearity, and the result for a single data bit. -/
def Obligations.EncodeIsLinear : Prop :=
  (∀ a b : Word64, encodeReg (a ^^^ b) = encodeReg a ^^^ encodeReg b) ∧ encodeReg 0 = 0 ∧
  (∀ j ∈ dataPositions,
    (∀ k < 64, (encodeReg (1#64 <<< j)).getLsbD k = true ↔
      k = j ∨ (∃ e < 6, k = 2 ^ e ∧ j.testBit e = true) ∨ (k = 0 ∧ popcount (BitVec.ofNat 6 j) % 2 = 0)) ∧
    popcount (encodeReg (1#64 <<< j)) = 2 * ((popcount (BitVec.ofNat 6 j) + 2) / 2) ∧
    4 ≤ popcount (encodeReg (1#64 <<< j)))

/-- 42_parity_generator.md R74: the shape of an XOR tree and the order of its inputs do not matter, for any of the
input sets the rule fixes. -/
def Obligations.XorTreeShapeIsFree : Prop :=
  ∀ (r : Word64) (tree : XorTree),
    (∀ i ∈ codePositions, tree.leaves.Perm (inputs i) → tree.eval r = (setCodeBit i r).getLsbD i) ∧
    (tree.leaves.Perm (List.range' 1 63) → tree.eval r = (setParityBit r).getLsbD 0) ∧
    (tree.leaves.Perm evenPositions → tree.eval r = (encodeReg r).getLsbD 0)

/-- 00_scope.md R1, 42_parity_generator.md R73, 93_implementation_defined.md G5: two registers whose data differ are
encoded at least four bits apart, so one flipped bit can be located and two detected. -/
def Obligations.EncodedWordsDifferInFourBits : Prop :=
  ∀ r r' : Word64, ¬ sameData r r' → 4 ≤ popcount (encodeReg r ^^^ encodeReg r')

/-! ### The whole invocation -/

/-- 43_packer.md R79: ten steps from the start state reach `PH` = 10 with the result, for every input. -/
def Obligations.InvocationComputesDrvgen : Prop :=
  ∀ (s : State) (L OUT : Block), OUT = pack (encodeReg (unpack L)) →
    ∃ t, Host.Core.run core 10 (s.load L) = .next t ∧ execSeq drvgenOps (s.load L) = .next t ∧
      (∀ (i : Nat) (h : i < 8), Memory.read t.buf i = some OUT[i]) ∧
      t.r = encodeReg (unpack L) ∧ t.ph = 10 ∧
      (∃ d1 d0, t.drv1 = some d1 ∧ t.drv0 = some d0 ∧
        d1.toNat = OUT[0].toNat * 2 ^ 24 + OUT[1].toNat * 2 ^ 16 + OUT[2].toNat * 2 ^ 8 + OUT[3].toNat ∧
        d0.toNat = OUT[4].toNat * 2 ^ 24 + OUT[5].toNat * 2 ^ 16 + OUT[6].toNat * 2 ^ 8 + OUT[7].toNat ∧
        drvgen L = (OUT, d1, d0)) ∧
      t.result = some (drvgen L)

/-- 43_packer.md R80: the output keeps the data bits of the input; the other bits of it are the check bits. -/
def Obligations.OutputKeepsDataBits : Prop :=
  (∀ (L : Block) (i : Nat) (h : i < 8),
    (drvgenBytes L)[i] &&& dataMask[i] = L[i] &&& dataMask[i] ∧ dataMask[i] ^^^ computedMask[i] = 0xFF) ∧
  (∀ (L : Block), ∀ c ∈ computedBits,
    byteBit (drvgenBytes L) c.2.1 c.2.2.1 = (encodeReg (unpack L)).getLsbD c.1)

/-- 43_packer.md R81: the closed form on the buffer word is the function the ten operations compute, with either form
of its parity bit. -/
def Obligations.ClosedFormOnBufferWord : Prop :=
  ∀ L : Block, bufferWord (drvgenBytes L) = outputWord (bufferWord L) ∧
    (drvgen L).2.1 = (outputWord (bufferWord L)).extractLsb' 32 32 ∧
    (drvgen L).2.2 = (outputWord (bufferWord L)).extractLsb' 0 32 ∧
    (outputWord (bufferWord L)).getLsbD 7 = par (bufferWord L &&& 0x6996966996696916)

/-- 43_packer.md R82 items 2 to 6. -/
def Obligations.DrvgenProperties : Prop :=
  drvgen #v[0, 0, 0, 0, 0, 0, 0, 0] = (#v[0, 0, 0, 0, 0, 0, 0, 0], 0, 0) ∧
  (∀ L : Block, drvgenBytes (drvgenBytes L) = drvgenBytes L) ∧
  (∀ L L' : Block, (∀ (i : Nat) (h : i < 8), L[i] &&& dataMask[i] = L'[i] &&& dataMask[i]) →
    drvgen L = drvgen L') ∧
  (∀ L : Block, popcount (bufferWord (drvgenBytes L)) % 2 = 0) ∧
  (∀ A B C : Block, bufferWord C = bufferWord A ^^^ bufferWord B →
    bufferWord (drvgenBytes C) = bufferWord (drvgenBytes A) ^^^ bufferWord (drvgenBytes B))

/-- 43_packer.md R82 item 7: the set of possible outputs has exactly 2^57 members. -/
def Obligations.OutputSetHasSize2Pow57 : Prop :=
  (Set.range drvgenBytes).ncard = 2 ^ 57

/-- 70_reset_and_hazards.md R104: any order of the ten operations that meets the four orderings gives the result of the
canonical sequence, and for each ordering a sequence that breaks it gives another. -/
def Obligations.FourOrderingsDecideTheResult : Prop :=
  (∀ (ops : List Instr) (s : State) (L : Block), meetsOrder ops = true →
    execSeq ops (s.load L) = execSeq drvgenOps (s.load L)) ∧
  (∀ ops ∈ [[Instr.code1, .build, .code2, .code4, .code8, .code16, .code32, .parity, .pack, .report],
      [.build, .parity, .code1, .code2, .code4, .code8, .code16, .code32, .pack, .report],
      [.build, .code1, .code2, .code4, .code8, .code16, .code32, .pack, .parity, .report],
      [.build, .code1, .code2, .code4, .code8, .code16, .code32, .parity, .report, .pack]],
    ∃ (s : State) (L : Block), execSeq ops (s.load L) ≠ execSeq drvgenOps (s.load L))

/-! ### Invariants -/

/-- The invariant of an invocation, whatever its input (10_state.md R12, R15, R16, 30_encoding.md R36), is kept by
every step. -/
def Obligations.PhaseInvariantIsKept : Prop :=
  ∀ s t : State, PhaseInv s → step s = .next t → PhaseInv t

/-- The invariant holds after reset and at the start of every invocation. -/
def Obligations.PhaseInvariantAtStart : Prop :=
  PhaseInv State.reset ∧ ∀ (s : State) (L : Block), PhaseInv (s.load L)

/-- From a state that meets the invariant the machine goes on, or the invocation is over, or the host has not written
the buffer yet (60_exceptions.md R92, R103). -/
def Obligations.InvariantStatesGoOn : Prop :=
  ∀ s : State, PhaseInv s → safe s ∨ (s.ph = 0 ∧ Memory.block s.buf = none)

/-- The states of one invocation are the ones its rules give (20_memory.md R29, 43_packer.md R79): it starts in the
first, every step leads from one to the next, and the tenth step reaches the last. -/
def Obligations.StepsFollowTheInvocation : Prop :=
  ∀ (s : State) (L : Block), s.load L = invocationState L 0 ∧
    (∀ p < 10, step (invocationState L p) = .next (invocationState L (p + 1))) ∧
    (∀ u t : State, (∃ p ≤ 10, u = invocationState L p) → step u = .next t →
      ∃ p ≤ 10, t = invocationState L p)

/-- The buffer keeps its canonical form under every operation and every step. -/
def Obligations.BufferStaysCanonical : Prop :=
  (∀ (i : Instr) (s t : State), Memory.wf s.buf → exec i s = .next t → Memory.wf t.buf) ∧
  (∀ s t : State, Memory.wf s.buf → step s = .next t → Memory.wf t.buf)

/-! ### The host's front end -/

/-- 30_encoding.md R43 and decision D13: the 16 digits of a block, in either case of each letter, parse to the block.
Which characters form which byte is the spec's decision (log entry 12). -/
def Obligations.HexTextParsesToItsBytes : Prop :=
  (∀ (L : Block) (text : List Char), List.Forall₂ sameDigit (blockText L) text →
    hostAction [text] = .givenInput L) ∧
  (∀ (L : Block), (blockText L).length = 16) ∧
  (∀ (text : List Char) (L : Block), hostAction [text] = .givenInput L →
    text.length = 16 ∧ List.Forall₂ sameDigit (blockText L) text)

/-- 60_exceptions.md R88, R90, R91 and decision D15: the host's checks in their order, and its exit statuses (log
entry 13). -/
def Obligations.HostChecksInOrder : Prop :=
  (∀ args : List (List Char), 2 ≤ args.length → hostAction args = .reject .usage) ∧
  hostAction [] = .randomInput ∧
  hostAction [['-', '-', 'h', 'e', 'l', 'p']] = .help ∧ hostAction [['-', 'h']] = .help ∧
  (∀ a : List Char, a ≠ ['-', '-', 'h', 'e', 'l', 'p'] → a ≠ ['-', 'h'] → a.length ≠ 16 →
    hostAction [a] = .reject .length) ∧
  (∀ a : List Char, a.length = 16 → (∃ c ∈ a, hexValue c = none) →
    hostAction [a] = .reject .invalidCharacter) ∧
  (∀ a : List Char, a.length = 16 → (∀ c ∈ a, hexValue c ≠ none) → ∃ L, hostAction [a] = .givenInput L) ∧
  (∀ (args : List (List Char)) (e : HostError), hostAction args = .reject e → hostStatus args = 1) ∧
  (∀ args : List (List Char), (∀ e, hostAction args ≠ .reject e) → hostStatus args = 0)

/-- 60_exceptions.md R87, R92, 43_packer.md R78: a run of the host that reaches the block completes, and its two report
rows show the output as text, DRV1 first; a run that does not reach it does no computation. The row texts are the
model's (log entry 15). -/
def Obligations.HostRunReportsOutput : Prop :=
  ∀ (args : List (List Char)) (draw L : Block), hostInput args draw = some L →
    hostStatus args = 0 ∧
    ∃ t rows, Host.Core.run core 10 (State.reset.load L) = .next t ∧ t.report = some rows ∧
      rows.map ReportRow.name = [['D', 'R', 'V', '1'], ['D', 'R', 'V', '0']] ∧
      (rows.flatMap ReportRow.value) = blockText (drvgenBytes L) ∧
      (∀ row ∈ rows, row.value.length = 8)

/-! ### A few words -/

/-- Words of the opcode table, written from the spec's table of indices, decode to their operations. -/
def Obligations.TableWordsDecode : Prop :=
  decodeTableWord 8 0b0000 = some .build ∧ decodeTableWord 8 0b0001 = some .code1 ∧
  decodeTableWord 8 0b0110 = some .code32 ∧ decodeTableWord 8 0b0111 = some .parity ∧
  decodeTableWord 8 0b1000 = some .pack ∧ decodeTableWord 8 0b1001 = some .report ∧
  decodeTableWord 8 0b1010 = none ∧ decodeTableWord 8 0b1111 = none
end

