-- ==== Sys2Proof/Laws/Bits.lean ====
section
/-! SUPPORT. Bits of words: `ofBits`, `writeBit`, `xorOver`, `pack`, `unpack` and the computed bits. -/

namespace Sys2Proof.Machine

theorem getLsbD_ofBits (n : Nat) (f : Nat → Bool) (k : Nat) :
    (ofBits n f).getLsbD k = (decide (k < n) && f k) := by
  induction n with
  | zero => simp [ofBits]
  | succ n ih =>
    rw [ofBits, BitVec.getLsbD_cons, ih]
    by_cases h : k = n
    · subst h
      simp
    · have : (k < n + 1) ↔ k < n := by omega
      simp [h, this]

theorem getLsbD_writeBit (r : Word64) (k : Nat) (v : Bool) (j : Nat) (hj : j < 64) :
    (writeBit r k v).getLsbD j = if j = k then v else r.getLsbD j := by
  have one : ∀ n : Nat, (1#64).getLsbD n = decide (n = 0) := fun n => by simp [BitVec.getLsbD_one]
  have val : ∀ n : Nat, (if v then 1#64 else 0#64).getLsbD n = (v && decide (n = 0)) := by
    intro n
    cases v
    · simp
    · simp
  rw [writeBit, BitVec.getLsbD_or, BitVec.getLsbD_and, BitVec.getLsbD_not, BitVec.getLsbD_shiftLeft,
    BitVec.getLsbD_shiftLeft, one, val]
  by_cases h : j = k
  · subst h
    simp [hj]
  · have hlt : j < k ∨ ¬ (j - k = 0) := by omega
    rcases hlt with hlt | hne
    · simp [h, hj, hlt]
    · simp [h, hj, hne]

/-! ### `xorOver` -/

theorem xorOver_foldl (S : List Nat) (r : Word64) (a : Bool) :
    S.foldl (fun acc j => acc ^^ r.getLsbD j) a = (a ^^ xorOver S r) := by
  induction S generalizing a with
  | nil => simp [xorOver]
  | cons j S ih =>
    rw [List.foldl_cons, ih]
    show _ = (a ^^ List.foldl _ (false ^^ r.getLsbD j) S)
    rw [ih, Bool.false_xor, Bool.xor_assoc]

theorem xorOver_nil (r : Word64) : xorOver [] r = false := rfl

theorem xorOver_cons (j : Nat) (S : List Nat) (r : Word64) :
    xorOver (j :: S) r = (r.getLsbD j ^^ xorOver S r) := by
  rw [xorOver, List.foldl_cons, xorOver_foldl]
  simp

/-- The reduction reads the bits of its set and no others. -/
theorem xorOver_congr (S : List Nat) (r r' : Word64) (h : ∀ j ∈ S, r.getLsbD j = r'.getLsbD j) :
    xorOver S r = xorOver S r' := by
  induction S with
  | nil => rfl
  | cons j S ih =>
    rw [xorOver_cons, xorOver_cons, h j (by simp), ih (fun k hk => h k (by simp [hk]))]

theorem xorOver_append (S T : List Nat) (r : Word64) :
    xorOver (S ++ T) r = (xorOver S r ^^ xorOver T r) := by
  induction S with
  | nil => simp [xorOver_nil]
  | cons j S ih => rw [List.cons_append, xorOver_cons, ih, xorOver_cons, Bool.xor_assoc]

/-- The order of the terms does not matter (42_parity_generator.md R74). -/
theorem xorOver_perm {S T : List Nat} (h : S.Perm T) (r : Word64) : xorOver S r = xorOver T r := by
  induction h with
  | nil => rfl
  | cons j _ ih => rw [xorOver_cons, xorOver_cons, ih]
  | swap a b S =>
    simp only [xorOver_cons, ← Bool.xor_assoc]
    rw [Bool.xor_comm (r.getLsbD b)]
  | trans _ _ h1 h2 => rw [h1, h2]

theorem xorOver_xor (S : List Nat) (r r' : Word64) :
    xorOver S (r ^^^ r') = (xorOver S r ^^ xorOver S r') := by
  induction S with
  | nil => rfl
  | cons j S ih =>
    rw [xorOver_cons, xorOver_cons, xorOver_cons, ih, BitVec.getLsbD_xor]
    cases r.getLsbD j <;> cases r'.getLsbD j <;> simp

/-- The XOR of bits is the parity of their count. -/
theorem countP_mod_two (S : List Nat) (r : Word64) :
    S.countP (fun k => r.getLsbD k) % 2 = (xorOver S r).toNat := by
  induction S with
  | nil => rfl
  | cons k S ih =>
    rw [List.countP_cons, xorOver_cons]
    revert ih
    generalize xorOver S r = z
    generalize List.countP (fun k => r.getLsbD k) S = c
    cases r.getLsbD k <;> cases z <;> simp <;> omega

/-- The parity of a masked word is the XOR over the positions of the mask (42_parity_generator.md R60 to R66). -/
theorem popcount_and_mod_two (r m : Word64) :
    popcount (r &&& m) % 2 = (xorOver ((List.range 64).filter (fun k => m.getLsbD k)) r).toNat := by
  have key : ∀ S : List Nat, xorOver S (r &&& m) = xorOver (S.filter (fun k => m.getLsbD k)) r := by
    intro S
    induction S with
    | nil => rfl
    | cons k S ih =>
      rw [xorOver_cons, ih, List.filter_cons, BitVec.getLsbD_and]
      cases m.getLsbD k <;> simp [xorOver_cons]
  exact (countP_mod_two _ _).trans (congrArg Bool.toNat (key _))

/-! ### The computed bits -/

/-- The cleared position adds nothing (42_parity_generator.md R67), so the two forms of a reduction agree. -/
theorem xorOver_cleared (S : List Nat) (r : Word64) (i : Nat) (h : ∀ j ∈ S, j < 64) :
    xorOver S (writeBit r i false) = xorOver (S.filter (fun j => j != i)) r := by
  induction S with
  | nil => rfl
  | cons j S ih =>
    rw [xorOver_cons, ih (fun k hk => h k (by simp [hk])), getLsbD_writeBit r i false j (h j (by simp))]
    by_cases hji : j = i
    · simp [hji]
    · simp [hji, xorOver_cons]

theorem mem_cover_lt (i j : Nat) (h : j ∈ cover i) : j < 64 := by
  simp only [cover, List.mem_filter, List.mem_range] at h
  exact h.1

/-- What a CODE operation does to the register: one bit, the parity of `inputs i`. -/
theorem getLsbD_setCodeBit (i : Nat) (r : Word64) (k : Nat) (hk : k < 64) :
    (setCodeBit i r).getLsbD k = if k = i then xorOver (inputs i) r else r.getLsbD k := by
  rw [setCodeBit, getLsbD_writeBit _ _ _ _ hk, getLsbD_writeBit _ _ _ _ hk,
    xorOver_cleared _ _ _ (fun j hj => mem_cover_lt i j hj)]
  by_cases h : k = i <;> simp [h, inputs]

/-- What PARITY does to the register: bit 0, the parity of the other 63. -/
theorem getLsbD_setParityBit (r : Word64) (k : Nat) (hk : k < 64) :
    (setParityBit r).getLsbD k =
      if k = 0 then xorOver ((List.range 64).filter (fun j => j != 0)) r else r.getLsbD k := by
  rw [setParityBit, getLsbD_writeBit _ _ _ _ hk, getLsbD_writeBit _ _ _ _ hk,
    xorOver_cleared _ _ _ (fun j hj => List.mem_range.mp hj)]
  by_cases h : k = 0 <;> simp [h]

/-! ### Bytes and register bits -/

theorem getLsbD_unpack (L : Block) (k : Nat) (hk : k < 64) :
    (unpack L).getLsbD k = byteBit L (7 - k / 8) (7 - k % 8) := by
  rw [unpack, getLsbD_ofBits]
  simp only [hk, decide_true, Bool.true_and]

theorem byteBit_pack (r : Word64) (i b : Nat) (hi : i < 8) (hb : b < 8) :
    byteBit (pack r) i b = r.getLsbD (56 - 8 * i + (7 - b)) := by
  have key : ∀ i, (packByte r i).getLsbD b = r.getLsbD (56 - 8 * i + (7 - b)) := by
    intro i
    rw [packByte, getLsbD_ofBits]
    simp only [hb, decide_true, Bool.true_and]
  interval_cases i <;> exact key _

/-- A byte of a block through its index and through `byteBit`. -/
theorem byteBit_getElem (L : Block) (i b : Nat) (hi : i < 8) : byteBit L i b = (L[i]).getLsbD b := by
  simp [byteBit, List.getD, hi]

/-- The bits of the buffer word: byte 0 at the top (30_encoding.md R40). -/
theorem getLsbD_bufferWord (L : Block) (p : Nat) (hp : p < 64) :
    (bufferWord L).getLsbD p = byteBit L (7 - p / 8) (p % 8) := by
  unfold bufferWord
  interval_cases p <;> simp only [BitVec.getLsbD_append] <;> exact (byteBit_getElem L _ _ (by omega)).symm

/-- Two blocks with equal bits are equal. -/
theorem block_ext {L M : Block} (h : ∀ i < 8, ∀ b < 8, byteBit L i b = byteBit M i b) : L = M := by
  refine Vector.ext fun i hi => BitVec.eq_of_getLsbD_eq fun b hb => ?_
  rw [← byteBit_getElem L i b hi, ← byteBit_getElem M i b hi]
  exact h i hi b hb

end Sys2Proof.Machine
end

