-- ==== Sys2Proof/Laws/State.lean ====
section
/-! SUPPORT. One lemma per field of `State` per update, so that no later proof unfolds a record update. -/

namespace Sys2Proof.Machine

variable (s : State) (m : List Host.Cell) (w : Word64) (v1 v0 : Word32) (L : Block)

@[simp] theorem State.withBuf_buf : (s.withBuf m).buf = m := rfl
@[simp] theorem State.withBuf_r : (s.withBuf m).r = s.r := rfl
@[simp] theorem State.withBuf_drv1 : (s.withBuf m).drv1 = s.drv1 := rfl
@[simp] theorem State.withBuf_drv0 : (s.withBuf m).drv0 = s.drv0 := rfl
@[simp] theorem State.withBuf_ph : (s.withBuf m).ph = s.ph := rfl

@[simp] theorem State.withR_buf : (s.withR w).buf = s.buf := rfl
@[simp] theorem State.withR_r : (s.withR w).r = w := rfl
@[simp] theorem State.withR_drv1 : (s.withR w).drv1 = s.drv1 := rfl
@[simp] theorem State.withR_drv0 : (s.withR w).drv0 = s.drv0 := rfl
@[simp] theorem State.withR_ph : (s.withR w).ph = s.ph := rfl

@[simp] theorem State.withFields_buf : (s.withFields v1 v0).buf = s.buf := rfl
@[simp] theorem State.withFields_r : (s.withFields v1 v0).r = s.r := rfl
@[simp] theorem State.withFields_drv1 : (s.withFields v1 v0).drv1 = some v1 := rfl
@[simp] theorem State.withFields_drv0 : (s.withFields v1 v0).drv0 = some v0 := rfl
@[simp] theorem State.withFields_ph : (s.withFields v1 v0).ph = s.ph := rfl

@[simp] theorem State.advance_buf : s.advance.buf = s.buf := rfl
@[simp] theorem State.advance_r : s.advance.r = s.r := rfl
@[simp] theorem State.advance_drv1 : s.advance.drv1 = s.drv1 := rfl
@[simp] theorem State.advance_drv0 : s.advance.drv0 = s.drv0 := rfl
@[simp] theorem State.advance_ph : s.advance.ph = nextPhase s.ph := rfl

@[simp] theorem State.load_buf : (s.load L).buf = Memory.putBlock [] L := rfl
@[simp] theorem State.load_r : (s.load L).r = 0 := rfl
@[simp] theorem State.load_drv1 : (s.load L).drv1 = none := rfl
@[simp] theorem State.load_drv0 : (s.load L).drv0 = none := rfl
@[simp] theorem State.load_ph : (s.load L).ph = 0 := rfl

/-- Advancing the phase and writing the register do not touch each other. -/
theorem State.advance_withR : s.advance.withR w = (s.withR w).advance := rfl

theorem State.withR_withR (w' : Word64) : (s.withR w).withR w' = s.withR w' := rfl

/-- Two states with equal fields are equal. -/
theorem State.ext_fields {s t : State} (hb : s.buf = t.buf) (hr : s.r = t.r) (h1 : s.drv1 = t.drv1)
    (h0 : s.drv0 = t.drv0) (hp : s.ph = t.ph) : s = t := by
  cases s
  cases t
  simp only at hb hr h1 h0 hp
  subst hb hr h1 h0 hp
  rfl

end Sys2Proof.Machine
end

