-- ==== Sys2Proof/Laws/Memory.lean ====
section
/-! SUPPORT. The byte buffer: a read after a write, the canonical form, and what the whole accesses can answer. -/

namespace Sys2Proof.Machine

/-- A read after a write, whatever the form of the buffer. -/
theorem Memory.read_write (m : List Host.Cell) (a : Nat) (v : Byte) (b : Nat) :
    Memory.read (Memory.write m a v) b = if b = a then some v else Memory.read m b := by
  induction m with
  | nil => by_cases h : a = b <;> simp [Memory.write, Memory.read, h, eq_comm]
  | cons c m ih =>
    rw [Memory.write]
    split
    · by_cases hb : b = a
      · simp [Memory.read, hb]
      · have : ¬ a = b := fun e => hb e.symm
        simp [Memory.read, hb, this]
    · split
      · rename_i hlt heq
        by_cases hb : b = a
        · simp [Memory.read, hb]
        · have h1 : ¬ a = b := fun e => hb e.symm
          have h2 : ¬ c.1 = b := fun e => hb (by omega)
          simp [Memory.read, hb, h1, h2]
      · rename_i hlt hne
        rw [Memory.read, ih, Memory.read]
        by_cases hb : c.1 = b
        · have : ¬ b = a := fun e => hne (by omega)
          simp [hb, this]
        · simp [hb]

theorem Memory.mem_write (m : List Host.Cell) (a : Nat) (v : Byte) (c : Host.Cell)
    (h : c ∈ Memory.write m a v) : c = (a, v) ∨ c ∈ m := by
  induction m with
  | nil => simpa [Memory.write] using h
  | cons d m ih =>
    rw [Memory.write] at h
    split at h
    · simpa using h
    · split at h
      · rcases List.mem_cons.mp h with h | h
        · exact .inl h
        · exact .inr (by simp [h])
      · rcases List.mem_cons.mp h with h | h
        · exact .inr (by simp [h])
        · rcases ih h with h | h
          · exact .inl h
          · exact .inr (by simp [h])

theorem Memory.rising_write (m : List Host.Cell) (a : Nat) (v : Byte)
    (h : m.Pairwise (fun c d => c.1 < d.1)) :
    (Memory.write m a v).Pairwise (fun c d => c.1 < d.1) := by
  induction m with
  | nil => simp [Memory.write]
  | cons c m ih =>
    have hc := List.pairwise_cons.mp h
    rw [Memory.write]
    split
    · rename_i hlt
      refine List.pairwise_cons.mpr ⟨fun d hd => ?_, h⟩
      rcases List.mem_cons.mp hd with hd | hd
      · simpa [hd] using hlt
      · have := hc.1 d hd
        simp only at *
        omega
    · split
      · rename_i hlt heq
        refine List.pairwise_cons.mpr ⟨fun d hd => ?_, hc.2⟩
        have := hc.1 d hd
        simp only at *
        omega
      · rename_i hlt hne
        refine List.pairwise_cons.mpr ⟨fun d hd => ?_, ih hc.2⟩
        rcases Memory.mem_write m a v d hd with hd | hd
        · subst hd
          simp only at *
          omega
        · exact hc.1 d hd

/-- A write to an existing address keeps the canonical form. -/
theorem Memory.wf_write (m : List Host.Cell) (a : Nat) (v : Byte) (h : Memory.wf m) (ha : a < 8) :
    Memory.wf (Memory.write m a v) := by
  refine ⟨Memory.rising_write m a v h.1, fun c hc => ?_⟩
  rcases Memory.mem_write m a v c hc with hc | hc
  · simpa [hc] using ha
  · exact h.2 c hc

theorem Memory.wf_writeList (l : List Byte) : ∀ (m : List Host.Cell) (a : Nat), Memory.wf m →
    a + l.length ≤ 8 → Memory.wf (Memory.writeList m a l) := by
  induction l with
  | nil => intro m a h _; exact h
  | cons v l ih =>
    intro m a h hl
    simp only [List.length_cons] at hl
    exact ih _ _ (Memory.wf_write m a v h (by omega)) (by omega)

/-- The whole write keeps the canonical form. -/
theorem Memory.wf_putBlock (m : List Host.Cell) (L : Block) (h : Memory.wf m) :
    Memory.wf (Memory.putBlock m L) :=
  Memory.wf_writeList L.toList m 0 h (by simp)

theorem Memory.wf_nil : Memory.wf [] := by decide

theorem Memory.read_writeList (l : List Byte) : ∀ (m : List Host.Cell) (a b : Nat),
    Memory.read (Memory.writeList m a l) b =
      if a ≤ b ∧ b < a + l.length then l[b - a]? else Memory.read m b := by
  induction l with
  | nil =>
    intro m a b
    simp [Memory.writeList]
  | cons v l ih =>
    intro m a b
    rw [Memory.writeList, ih, Memory.read_write m a v b]
    simp only [List.length_cons]
    by_cases h1 : a + 1 ≤ b ∧ b < a + 1 + l.length
    · have h2 : a ≤ b ∧ b < a + (l.length + 1) := by omega
      obtain ⟨k, hk⟩ : ∃ k, b - a = k + 1 := ⟨b - a - 1, by omega⟩
      have hk' : b - (a + 1) = k := by omega
      simp [h1, h2, hk, hk']
    · by_cases h2 : b = a
      · subst h2
        simp
      · have h3 : ¬ (a ≤ b ∧ b < a + (l.length + 1)) := by omega
        rw [if_neg h1, if_neg h2, if_neg h3]

/-- The bytes after the whole write: the block at 0..7, everything else as before. -/
theorem Memory.read_putBlock (m : List Host.Cell) (L : Block) (b : Nat) :
    Memory.read (Memory.putBlock m L) b = if h : b < 8 then some L[b] else Memory.read m b := by
  rw [Memory.putBlock, Memory.read_writeList]
  by_cases hb : b < 8 <;> simp [hb]

/-- The whole read: it answers a block exactly when all eight bytes have a value. -/
theorem Memory.block_eq_some (m : List Host.Cell) (L : Block) :
    Memory.block m = some L ↔ ∀ (i : Nat) (h : i < 8), Memory.read m i = some L[i] := by
  constructor
  · intro h i hi
    unfold Memory.block at h
    split at h
    · cases h
      interval_cases i <;> assumption
    · cases h
  · intro h
    unfold Memory.block
    rw [h 0 (by omega), h 1 (by omega), h 2 (by omega), h 3 (by omega), h 4 (by omega), h 5 (by omega),
      h 6 (by omega), h 7 (by omega)]
    simp only [Option.some.injEq]
    refine Vector.ext fun i hi => ?_
    interval_cases i <;> rfl

/-- A byte without a value leaves the whole read without a block. -/
theorem Memory.block_eq_none (m : List Host.Cell) :
    Memory.block m = none ↔ ∃ i < 8, Memory.read m i = none := by
  constructor
  · intro h
    by_contra hn
    have hs : ∀ i, i < 8 → ∃ v, Memory.read m i = some v := by
      intro i hi
      cases hr : Memory.read m i with
      | none => exact absurd ⟨i, hi, hr⟩ hn
      | some v => exact ⟨v, rfl⟩
    have := (Memory.block_eq_some m (Vector.ofFn fun i => (hs i.1 i.2).choose)).mpr (by
      intro i hi
      rw [Vector.getElem_ofFn]
      exact (hs i hi).choose_spec)
    rw [h] at this
    cases this
  · rintro ⟨i, hi, hr⟩
    cases hb : Memory.block m with
    | none => rfl
    | some L =>
      have := (Memory.block_eq_some m L).mp hb i hi
      rw [hr] at this
      cases this

theorem Memory.block_putBlock (m : List Host.Cell) (L : Block) :
    Memory.block (Memory.putBlock m L) = some L := by
  rw [Memory.block_eq_some]
  intro i hi
  rw [Memory.read_putBlock m L i]
  simp [hi]

/-! ### The whole accesses -/

/-- Everything the one access the operations form can answer. -/
theorem memRead_whole (s : State) :
    memRead s 0 8 =
      match Memory.block s.buf with
      | some L => .next L
      | none => .refused .bufferWithoutValue := rfl

theorem memRead_of_block (s : State) (L : Block) (h : Memory.block s.buf = some L) :
    memRead s 0 8 = .next L := by
  rw [memRead_whole, h]

theorem memRead_of_none (s : State) (h : Memory.block s.buf = none) :
    memRead s 0 8 = .refused .bufferWithoutValue := by
  rw [memRead_whole, h]

theorem memWrite_whole (s : State) (L : Block) :
    memWrite s 0 8 L = .next (s.withBuf (Memory.putBlock s.buf L)) := rfl

end Sys2Proof.Machine
end

