-- ==== Sys2Proof/Laws/Exec.lean ====
section
/-! SUPPORT. What each meaning answers, said once, and what a step can do. -/

namespace Sys2Proof.Machine

theorem exec_build_of_block (s : State) (L : Block) (h : Memory.block s.buf = some L) :
    exec .build s = .next (s.withR (unpack L)).advance := by
  show andThen (memRead s 0 8) _ = _
  rw [memRead_of_block s L h]
  rfl

theorem exec_build_of_none (s : State) (h : Memory.block s.buf = none) :
    exec .build s = .refused .bufferWithoutValue := by
  show andThen (memRead s 0 8) _ = _
  rw [memRead_of_none s h]
  rfl

theorem exec_code1 (s : State) : exec .code1 s = .next (s.withR (setCodeBit 1 s.r)).advance := rfl
theorem exec_code2 (s : State) : exec .code2 s = .next (s.withR (setCodeBit 2 s.r)).advance := rfl
theorem exec_code4 (s : State) : exec .code4 s = .next (s.withR (setCodeBit 4 s.r)).advance := rfl
theorem exec_code8 (s : State) : exec .code8 s = .next (s.withR (setCodeBit 8 s.r)).advance := rfl
theorem exec_code16 (s : State) : exec .code16 s = .next (s.withR (setCodeBit 16 s.r)).advance := rfl
theorem exec_code32 (s : State) : exec .code32 s = .next (s.withR (setCodeBit 32 s.r)).advance := rfl
theorem exec_parity (s : State) : exec .parity s = .next (s.withR (setParityBit s.r)).advance := rfl

theorem exec_pack (s : State) :
    exec .pack s = .next (s.withBuf (Memory.putBlock s.buf (pack s.r))).advance := rfl

theorem exec_report_of_block (s : State) (L : Block) (h : Memory.block s.buf = some L) :
    exec .report s = .next (s.withFields (field1 L) (field0 L)).advance := by
  show andThen (memRead s 0 8) _ = _
  rw [memRead_of_block s L h]
  rfl

theorem exec_report_of_none (s : State) (h : Memory.block s.buf = none) :
    exec .report s = .refused .bufferWithoutValue := by
  show andThen (memRead s 0 8) _ = _
  rw [memRead_of_none s h]
  rfl

theorem execSeq_nil (s : State) : execSeq [] s = .next s := rfl

theorem execSeq_cons (i : Instr) (ops : List Instr) (s : State) :
    execSeq (i :: ops) s = andThen (exec i s) (execSeq ops) := rfl

theorem andThen_next {α β : Type} (a : α) (f : α → Host.Outcome β Fault Refusal) : andThen (.next a) f = f a := rfl

/-- A sequence goes on where its first operation answers a next state. -/
theorem execSeq_cons_of_next {i : Instr} {s t : State} (h : exec i s = .next t) (ops : List Instr) :
    execSeq (i :: ops) s = execSeq ops t := by
  rw [execSeq_cons, h, andThen_next]

/-- ENCODE as a sequence runs from every state and writes `encodeReg` to the register. -/
theorem execSeq_encodeOps (s : State) :
    execSeq encodeOps s =
      .next (s.withR (encodeReg s.r)).advance.advance.advance.advance.advance.advance.advance := by
  have ops : encodeOps = [.code1, .code2, .code4, .code8, .code16, .code32, .parity] := rfl
  rw [ops, execSeq_cons_of_next (exec_code1 s), execSeq_cons_of_next (exec_code2 _),
    execSeq_cons_of_next (exec_code4 _), execSeq_cons_of_next (exec_code8 _),
    execSeq_cons_of_next (exec_code16 _), execSeq_cons_of_next (exec_code32 _),
    execSeq_cons_of_next (exec_parity _), execSeq_nil, encodeReg]
  repeat rw [State.advance_r]
  repeat rw [State.withR_r]
  repeat rw [State.advance_withR]
  repeat rw [State.withR_withR]

/-- Everything an operation can answer when it answers a next state. -/
theorem exec_next_cases {i : Instr} {s t : State} (h : exec i s = .next t) :
    (∃ L, i = .build ∧ Memory.block s.buf = some L ∧ t = (s.withR (unpack L)).advance) ∨
    (∃ k, (i, k) ∈ codeOps.zip codePositions ∧ t = (s.withR (setCodeBit k s.r)).advance) ∨
    (i = .parity ∧ t = (s.withR (setParityBit s.r)).advance) ∨
    (i = .pack ∧ t = (s.withBuf (Memory.putBlock s.buf (pack s.r))).advance) ∨
    (∃ L, i = .report ∧ Memory.block s.buf = some L ∧
      t = (s.withFields (field1 L) (field0 L)).advance) := by
  cases i with
  | build =>
    cases hb : Memory.block s.buf with
    | none => rw [exec_build_of_none s hb] at h; cases h
    | some L =>
      rw [exec_build_of_block s L hb] at h
      cases h
      exact .inl ⟨L, rfl, rfl, rfl⟩
  | code1 => cases h; exact .inr (.inl ⟨1, by decide, rfl⟩)
  | code2 => cases h; exact .inr (.inl ⟨2, by decide, rfl⟩)
  | code4 => cases h; exact .inr (.inl ⟨4, by decide, rfl⟩)
  | code8 => cases h; exact .inr (.inl ⟨8, by decide, rfl⟩)
  | code16 => cases h; exact .inr (.inl ⟨16, by decide, rfl⟩)
  | code32 => cases h; exact .inr (.inl ⟨32, by decide, rfl⟩)
  | parity => cases h; exact .inr (.inr (.inl ⟨rfl, rfl⟩))
  | pack => cases h; exact .inr (.inr (.inr (.inl ⟨rfl, rfl⟩)))
  | report =>
    cases hb : Memory.block s.buf with
    | none => rw [exec_report_of_none s hb] at h; cases h
    | some L =>
      rw [exec_report_of_block s L hb] at h
      cases h
      exact .inr (.inr (.inr (.inr ⟨L, rfl, rfl, rfl⟩)))

/-- Every operation ends with `PH <- PH + 1` (10_state.md R15). -/
theorem exec_next_ph {i : Instr} {s t : State} (h : exec i s = .next t) : t.ph = nextPhase s.ph := by
  rcases exec_next_cases h with ⟨L, -, -, rfl⟩ | ⟨k, -, rfl⟩ | ⟨-, rfl⟩ | ⟨-, rfl⟩ | ⟨L, -, -, rfl⟩ <;> rfl

/-- A step is the operation that `PH` selects. -/
theorem step_of_decodeOp {s : State} {i : Instr} (h : decodeOp s.ph = some i) : step s = exec i s := by
  simp only [step, selectOp, h]

/-- A step that answers a next state ran an operation. -/
theorem step_next_cases {s t : State} (h : step s = .next t) :
    ∃ i, decodeOp s.ph = some i ∧ exec i s = .next t := by
  unfold step selectOp at h
  cases hd : decodeOp s.ph with
  | none => rw [hd] at h; cases h
  | some i => rw [hd] at h; exact ⟨i, rfl, h⟩

/-- Where the sum fits the 4 bits the phase index counts on by one. -/
theorem nextPhase_of_ne {ph : OpIndex} (h : ph ≠ 15) : nextPhase ph = ph + 1 := by
  rw [nextPhase, if_neg h]

/-- A run whose first step answers a next state goes on from that state. -/
theorem run_succ_of_next {s t : State} (h : step s = .next t) (n : Nat) :
    Host.Core.run core (n + 1) s = Host.Core.run core n t := by
  have h' : core.step s = .next t := h
  simp only [Host.Core.run, h']

end Sys2Proof.Machine
end

