-- ==== Sys2Proof/Laws/PerInstr.lean ====
section
/-! SUPPORT. The family `IndexRoundTrip`: what is claimed of every operation as syntax, one lemma a constructor. -/

namespace Sys2Proof.Laws.IndexRoundTrip

/-- An operation is well formed, its encoded byte decodes to it with nothing left over, and its index is the word
its row of spec/opcode_table.json gives it. -/
def Statement (i : Instr) : Prop :=
  i.wf = true ∧ decode (encode i) = .ok (i, []) ∧ decodeTableWord 8 (encodeOp i).toNat = some i

theorem build : Statement .build := ⟨rfl, rfl, rfl⟩
theorem code1 : Statement .code1 := ⟨rfl, rfl, rfl⟩
theorem code2 : Statement .code2 := ⟨rfl, rfl, rfl⟩
theorem code4 : Statement .code4 := ⟨rfl, rfl, rfl⟩
theorem code8 : Statement .code8 := ⟨rfl, rfl, rfl⟩
theorem code16 : Statement .code16 := ⟨rfl, rfl, rfl⟩
theorem code32 : Statement .code32 := ⟨rfl, rfl, rfl⟩
theorem parity : Statement .parity := ⟨rfl, rfl, rfl⟩
theorem pack : Statement .pack := ⟨rfl, rfl, rfl⟩
theorem report : Statement .report := ⟨rfl, rfl, rfl⟩

end Sys2Proof.Laws.IndexRoundTrip
end

