-- ==== Sys2Proof/Laws/Safety.lean ====
section
/-! SUPPORT. The fields of the states of an invocation. -/

namespace Sys2Proof.Machine

variable (L : Block) (p : Nat)

theorem invocationState_buf : (invocationState L p).buf = Memory.putBlock [] (if p ≤ 8 then L else drvgenBytes L) :=
  rfl

theorem invocationState_r : (invocationState L p).r = phaseReg L p := rfl

theorem invocationState_drv1 :
    (invocationState L p).drv1 = if p ≤ 9 then none else some (field1 (drvgenBytes L)) := rfl

theorem invocationState_drv0 :
    (invocationState L p).drv0 = if p ≤ 9 then none else some (field0 (drvgenBytes L)) := rfl

@[simp] theorem invocationState_ph : (invocationState L p).ph = BitVec.ofNat 4 p := rfl

/-- From PARITY on the register is the encoded input. -/
theorem phaseReg_eight : phaseReg L 8 = encodeReg (unpack L) := rfl

end Sys2Proof.Machine
end

