-- ==== Sys2Proof/Tests/Slice0.lean ====
section
/-! SUPPORT. Tests: expected results are the vectors of spec/95_test_vectors.md and the examples of the rules, named in
each comment. Then, for every statement with hypotheses, a named witness that meets them all. -/

namespace Sys2Proof.Tests

open Sys2Proof.Machine Sys2Proof.Claims

set_option maxRecDepth 4000

/-! ### Helpers -/

/-- A state with the given register, an unpopulated buffer and phase. -/
def withReg (r : Word64) (ph : OpIndex) : State := { State.reset with r := r, ph := ph }

/-- A state at the start of an invocation on eight bytes. -/
def withInput (L : Block) : State := State.reset.load L

/-- The register after an operation, 0 if it stopped. -/
def regAfter (o : Host.Outcome State Fault Refusal) : Word64 :=
  match o with
  | .next t => t.r
  | .fault _ => 0
  | .refused _ => 0

/-- The whole buffer after an operation. -/
def blockAfter (o : Host.Outcome State Fault Refusal) : Option Block :=
  match o with
  | .next t => Memory.block t.buf
  | .fault _ => none
  | .refused _ => none

/-- The fields after an operation. -/
def fieldsAfter (o : Host.Outcome State Fault Refusal) : Option Word32 × Option Word32 :=
  match o with
  | .next t => (t.drv1, t.drv0)
  | .fault _ => (none, none)
  | .refused _ => (none, none)

/-- The refusal an outcome gives, if it gives one. -/
def refusalOf (o : Host.Outcome State Fault Refusal) : Option Refusal :=
  match o with
  | .next _ => none
  | .fault _ => none
  | .refused e => some e

/-- The running example, `[DE AD BE EF CA FE F0 0D]`. -/
def beef : Block := #v[0xDE, 0xAD, 0xBE, 0xEF, 0xCA, 0xFE, 0xF0, 0x0D]

/-- A tree over a list of leaves, for the witnesses of the XOR-tree statement. -/
def chain : List Nat → Nat → XorTree
  | [], j => .leaf j
  | k :: rest, j => .node (.leaf j) (chain rest k)

/-! ### WellFormed: an ill-formed term for each check -/

/-- 70_reset_and_hazards.md R103: seven bytes are no input. -/
theorem test_seven_bytes_are_no_input : inputWf [1, 2, 3, 4, 5, 6, 7] = false := by decide

/-- 95_test_vectors.md P2: `BUILD; PACK` is no invocation. -/
theorem test_build_pack_is_no_invocation : isInvocation [.build, .pack] = false := by decide

/-- 95_test_vectors.md P4: PARITY before the code bits breaks an ordering of R104. -/
theorem test_wrong_program_breaks_order :
    meetsOrder [.build, .parity, .code1, .code2, .code4, .code8, .code16, .code32, .pack, .report] = false := by
  decide

/-- 10_state.md R15: the canonical sequence is an invocation and meets the orderings. -/
theorem test_canonical_sequence_is_ordered : isInvocation drvgenOps = true ∧ meetsOrder drvgenOps = true := by decide

/-! ### Decoding: words written out from the table of 30_encoding.md R44 -/

/-- Builder family. -/
theorem test_decode_0000 : decode [0b00000000] = .ok (.build, []) := rfl

/-- Parity generator family. -/
theorem test_decode_0001 : decode [0b00000001] = .ok (.code1, []) := rfl
theorem test_decode_0010 : decode [0b00000010] = .ok (.code2, []) := rfl
theorem test_decode_0011 : decode [0b00000011] = .ok (.code4, []) := rfl
theorem test_decode_0100 : decode [0b00000100] = .ok (.code8, []) := rfl
theorem test_decode_0101 : decode [0b00000101] = .ok (.code16, []) := rfl
theorem test_decode_0110 : decode [0b00000110] = .ok (.code32, []) := rfl
theorem test_decode_0111 : decode [0b00000111] = .ok (.parity, []) := rfl

/-- Packer family. -/
theorem test_decode_1000 : decode [0b00001000] = .ok (.pack, []) := rfl
theorem test_decode_1001 : decode [0b00001001] = .ok (.report, []) := rfl

/-- R45: 10 to 15 name no operation. -/
theorem test_decode_1010_is_refused : decode [0b00001010] = .error (.reservedIndex 10) := rfl

/-- Format OP4 has one 4-bit field and nothing else. -/
theorem test_decode_wide_byte_is_refused : decode [0b00010000] = .error (.notOp4 16) := rfl

/-- No two rows of the table match the same index. -/
theorem test_table_rows_do_not_overlap :
    opTable.Pairwise (fun a b => ∀ op : OpIndex, ¬ (op &&& a.mask = a.pattern ∧ op &&& b.mask = b.pattern)) := by
  decide

/-- 95_test_vectors.md P4: the encoding of the wrong program. -/
theorem test_encode_program_p4 :
    encodeProgram [.build, .parity, .code1, .code2, .code4, .code8, .code16, .code32, .pack, .report] =
      [0, 7, 1, 2, 3, 4, 5, 6, 8, 9] := by decide

/-! ### One step of each operation -/

/-- B14: BUILD of the running example. -/
theorem test_build_b14 : regAfter (exec .build (withInput beef)) = 0x7BB57DF7537F0FB0 := by decide

/-- B5: mask 0x01 of `BUF[7]` is register index 7, not 0. -/
theorem test_build_b5 : regAfter (exec .build (withInput #v[0, 0, 0, 0, 0, 0, 0, 1])) = 0x80 := by decide

/-- K13: CODE1 with only data bit 63. -/
theorem test_code1_k13 : regAfter (exec .code1 (withReg 0x8000000000000000 1)) = 0x8000000000000002 := by decide

/-- K7: the old content of the written position does not count. -/
theorem test_code1_k7 : regAfter (exec .code1 (withReg 0x0000000000000002 1)) = 0 := by decide

/-- K2. -/
theorem test_code2_k2 : regAfter (exec .code2 (withReg 0x7BB57DF7537F0FB0 2)) = 0x7BB57DF7537F0FB4 := by decide

/-- K3: a 1 in the input is overwritten by 0. -/
theorem test_code4_k3 : regAfter (exec .code4 (withReg 0x7BB57DF7537F0FB0 3)) = 0x7BB57DF7537F0FA0 := by decide

/-- K24: all 31 inputs 1. -/
theorem test_code8_k24 : regAfter (exec .code8 (withReg 0xFFFFFFFEFFFEFEE8 4)) = 0xFFFFFFFEFFFEFFE8 := by decide

/-- K17. -/
theorem test_code16_k17 : regAfter (exec .code16 (withReg 0x8000000000000000 5)) = 0x8000000000010000 := by decide

/-- K12: the self-term does not count. -/
theorem test_code32_k12 : regAfter (exec .code32 (withReg 0x0000000100000000 6)) = 0 := by decide

/-- K6. -/
theorem test_code32_k6 : regAfter (exec .code32 (withReg 0x7BB57DF7537F0FB0 6)) = 0x7BB57DF7537F0FB0 := by decide

/-- K28: the old `R[0]` does not count. -/
theorem test_parity_k28 : regAfter (exec .parity (withReg 0x0000000000000003 7)) = 3 := by decide

/-- K32: code bits count. -/
theorem test_parity_k32 : regAfter (exec .parity (withReg 0x000000000000000E 7)) = 0xF := by decide

/-- The example of 43_packer.md R76; the buffer needs no value before. -/
theorem test_pack_running_example :
    blockAfter (exec .pack (withReg 0x7BB57DF7537F0FA4 8)) =
      some #v[0xDE, 0xAD, 0xBE, 0xEF, 0xCA, 0xFE, 0xF0, 0x25] := by decide

/-- B4 right to left: `R[0]` alone packs to mask 0x80 of `BUF[7]`. -/
theorem test_pack_b4 : blockAfter (exec .pack (withReg 1 8)) = some #v[0, 0, 0, 0, 0, 0, 0, 0x80] := by decide

/-- The example of 43_packer.md R77. -/
theorem test_report_running_example :
    fieldsAfter (exec .report (withInput #v[0xDE, 0xAD, 0xBE, 0xEF, 0xCA, 0xFE, 0xF0, 0x25])) =
      (some 0xDEADBEEF, some 0xCAFEF025) := by decide

/-- 10_state.md R16: BUILD on a buffer without a value is refused. -/
theorem test_build_without_value : refusalOf (step State.reset) = some .bufferWithoutValue := by decide

/-- A placed word runs as the first operation after reset. -/
theorem test_placed_report_runs :
    fieldsAfter (step (State.reset.withFetchWord 8 9)) = (some 0, some 0) := by decide

/-! ### The pure functions and the host's front end -/

/-- E5: ENCODE with only data bit 63. -/
theorem test_encode_e5 : encodeReg 0x8000000000000000 = 0x8000000100010117 := by decide

/-- G13: the running example, as bytes and fields. -/
theorem test_drvgen_g13 :
    drvgen beef = (#v[0xDE, 0xAD, 0xBE, 0xEF, 0xCA, 0xFE, 0xF0, 0x25], 0xDEADBEEF, 0xCAFEF025) := by decide

/-- G8 on the closed form of R81. -/
theorem test_output_word_g8 : outputWord 0x0100000000000000 = 0x01000080008080E8 := by decide

/-- S4: `"1234"` is a length error. -/
theorem test_host_rejects_1234 : hostAction [['1', '2', '3', '4']] = .reject .length := by decide

/-- S4: `"11111111222222gz"` is an invalid-character error, status 1. -/
theorem test_host_rejects_gz :
    hostAction [['1', '1', '1', '1', '1', '1', '1', '1', '2', '2', '2', '2', '2', '2', 'g', 'z']]
      = .reject .invalidCharacter := by decide

/-- P5: `"12g"` is a length error although it holds a bad character. -/
theorem test_host_rejects_12g : hostAction [['1', '2', 'g']] = .reject .length := by decide

/-- P5: upper case is accepted. -/
theorem test_host_accepts_upper_case :
    hostAction [['D', 'E', 'A', 'D', 'B', 'E', 'E', 'F', 'C', 'A', 'F', 'E', 'F', '0', '0', 'D']] =
      .givenInput beef := by decide

/-- 43_packer.md R78 and scenario S1: leading zeros are kept. -/
theorem test_field_text_zero : fieldText 0xF0 = ['0', '0', '0', '0', '0', '0', 'f', '0'] := by decide

/-! ### Witnesses: the hypotheses of each statement can be met -/

theorem witness_reserved_index : 10 ≤ (10#4).toNat ∧ 10 ≤ (15#4).toNat := by decide

theorem witness_decode_encode :
    Instr.report.wf = true ∧ decode [9, 0xFF] = .ok (.report, [0xFF]) ∧
      decodeProgram [0, 9] = .ok [.build, .report] := ⟨rfl, rfl, rfl⟩

theorem witness_step_runs_operation : decodeOp (withReg 0 9).ph = some .report := by decide

theorem witness_placed_word :
    decodeTableWord 8 9 = some .report ∧ Memory.block (withInput beef).buf = some beef := by decide

theorem witness_outside_sequence :
    (withReg 0 10).ph.toNat = 10 ∧ 10 < (withReg 0 11).ph.toNat ∧ 10 < (withReg 0 15).ph.toNat := by decide

theorem witness_step_next : ∃ t, step (withReg 0 8) = .next t := ⟨_, rfl⟩

theorem witness_populated_buffer :
    ∀ (i : Nat) (h : i < 8), Memory.read (withInput beef).buf i = some beef[i] := by decide

theorem witness_populated_block : Memory.block (withInput beef).buf = some beef := by decide

/-- Only the last byte lacks a value. -/
theorem witness_byte_without_value :
    ∃ i < 8, Memory.read [(0, 1#8), (1, 1#8), (2, 1#8), (3, 1#8), (4, 1#8), (5, 1#8), (6, 1#8)] i = none :=
  ⟨7, by decide, rfl⟩

theorem witness_phase_below_fifteen : (withReg 0 14).ph.toNat < 15 := by decide

theorem witness_operation_other_than_build :
    Instr.pack ≠ .build ∧ ∃ t, exec .pack (withReg 0 8) = .next t := ⟨by decide, _, rfl⟩

theorem witness_step_on_populated_buffer :
    Memory.block (withInput beef).buf = some beef ∧ (withInput beef).ph.toNat < 10 := by decide

/-- A partial access, and one that just reaches beyond the buffer. -/
theorem witness_other_accesses : ¬ (1 = 0 ∧ 7 = 8) ∧ ¬ (0 = 0 ∧ 9 = 8) ∧ 8 < 0 + 9 := by decide

theorem witness_bit_positions : 7 < 8 ∧ (0 < 8) ∧ (63 < 64) ∧ 56 - 8 * 7 + 7 = 7 := by decide

theorem witness_computed_bit : (0, 7, 7, 7) ∈ computedBits ∧ (32, 3, 7, 39) ∈ computedBits := by decide

theorem witness_data_position : 3 ∈ dataPositions ∧ 63 ∈ dataPositions ∧ 32 ∈ codePositions := by decide

theorem witness_encode_phase : (withReg 0 1).ph.toNat = 1 := by decide

/-- Registers that differ, at the seven computed positions only (vector E12). -/
theorem witness_same_data : sameData 0x0000000100010116 0 ∧ (0x0000000100010116 : Word64) ≠ 0 := by
  unfold sameData
  decide

/-- Blocks that differ, at the seven computed positions only (vector I8). -/
theorem witness_same_masked_blocks :
    ∀ (i : Nat) (h : i < 8), (computedMask)[i] &&& dataMask[i] = (#v[0, 0, 0, 0, 0, 0, 0, 0] : Block)[i] &&& dataMask[i] := by
  decide

theorem witness_other_code_order :
    [Instr.code32, .code16, .code8, .code4, .code2, .code1].Perm codeOps := by decide

/-- E3's result is a codeword. -/
theorem witness_codeword : codeword 0x96 := by
  unfold codeword codeEquation parityEquation
  decide

theorem witness_code_tree :
    (chain [5, 7, 9, 11, 13, 15, 17, 19, 21, 23, 25, 27, 29, 31, 33, 35, 37, 39, 41, 43, 45, 47, 49, 51, 53, 55, 57,
      59, 61, 63] 3).leaves.Perm (inputs 1) := by decide

theorem witness_parity_tree : (chain (List.range' 2 62) 1).leaves.Perm (List.range' 1 63) := by decide

theorem witness_even_tree : (chain evenPositions.tail 3).leaves.Perm evenPositions := by decide

theorem witness_different_data : ¬ sameData 0x8 0x20 := by
  unfold sameData
  decide

theorem witness_output_block : ∃ OUT, OUT = pack (encodeReg (unpack beef)) := ⟨_, rfl⟩

/-- `[0..03] = [0..01] xor [0..02]` as buffer words. -/
theorem witness_xor_of_words :
    bufferWord #v[0, 0, 0, 0, 0, 0, 0, 3] =
      bufferWord #v[0, 0, 0, 0, 0, 0, 0, 1] ^^^ bufferWord #v[0, 0, 0, 0, 0, 0, 0, 2] := by decide

/-- An order other than the canonical one that meets the four orderings. -/
theorem witness_other_order :
    meetsOrder [.build, .code32, .code1, .code2, .code4, .code8, .code16, .parity, .pack, .report] = true ∧
      [Instr.build, .code32, .code1, .code2, .code4, .code8, .code16, .parity, .pack, .report] ≠ drvgenOps := by
  decide

theorem witness_phase_invariant : PhaseInv State.reset where
  wf := by decide
  phLe := by decide
  zeroAtStart := fun _ => rfl
  dataBits := fun h => absurd h (by decide)
  codeBits := fun e _ h => absurd (show e + 2 ≤ 0 from h) (by omega)
  evenParity := fun h => absurd h (by decide)
  packed := fun h => absurd h (by decide)
  fieldsUnset := fun _ => ⟨rfl, rfl⟩
  fieldsSet := fun h => absurd h (by decide)

/-- A state that meets the invariant and takes a step. -/
theorem witness_phase_invariant_step :
    PhaseInv (withInput beef) ∧ ∃ t, step (withInput beef) = .next t := by
  refine ⟨?_, _, rfl⟩
  exact {
    wf := by decide
    phLe := by decide
    zeroAtStart := fun _ => rfl
    dataBits := fun h => absurd h (by decide)
    codeBits := fun e _ h => absurd (show e + 2 ≤ 0 from h) (by omega)
    evenParity := fun h => absurd h (by decide)
    packed := fun h => absurd h (by decide)
    fieldsUnset := fun _ => ⟨rfl, rfl⟩
    fieldsSet := fun h => absurd h (by decide) }

theorem witness_invocation_step :
    (∃ p ≤ 10, withInput beef = invocationState beef p) ∧ ∃ t, step (withInput beef) = .next t :=
  ⟨⟨0, by decide, rfl⟩, _, rfl⟩

theorem witness_canonical_buffer :
    Memory.wf (withInput beef).buf ∧ ∃ t, exec .pack (withInput beef) = .next t := ⟨by decide, _, rfl⟩

theorem witness_hex_text : List.Forall₂ sameDigit (blockText #v[0, 0, 0, 0, 0, 0, 0, 0xAB])
    ['0', '0', '0', '0', '0', '0', '0', '0', '0', '0', '0', '0', '0', '0', 'A', 'b'] := by
  have digits : blockText #v[0, 0, 0, 0, 0, 0, 0, 0xAB] =
      ['0', '0', '0', '0', '0', '0', '0', '0', '0', '0', '0', '0', '0', '0', 'a', 'b'] := by decide
  refine digits ▸ ?_
  simp [sameDigit, hexValue]

theorem witness_hex_argument :
    hostAction [['0', '0', '0', '0', '0', '0', '0', '0', '0', '0', '0', '0', '0', '0', 'A', 'b']] =
      .givenInput #v[0, 0, 0, 0, 0, 0, 0, 0xAB] := by decide

theorem witness_two_arguments : 2 ≤ [['a'], ['b']].length := by decide

theorem witness_bad_length :
    ['1', '2', 'g'] ≠ ['-', '-', 'h', 'e', 'l', 'p'] ∧ ['1', '2', 'g'] ≠ ['-', 'h'] ∧ ['1', '2', 'g'].length ≠ 16 := by
  decide

theorem witness_bad_character :
    ['1', '1', '1', '1', '1', '1', '1', '1', '2', '2', '2', '2', '2', '2', 'g', 'z'].length = 16 ∧
      ∃ c ∈ ['1', '1', '1', '1', '1', '1', '1', '1', '2', '2', '2', '2', '2', '2', 'g', 'z'], hexValue c = none :=
  ⟨by decide, 'g', by decide, by decide⟩

theorem witness_good_characters :
    ['1', '1', '1', '1', '1', '1', '1', '1', '2', '2', '2', '2', '2', '2', 'f', 'F'].length = 16 ∧
      ∀ c ∈ ['1', '1', '1', '1', '1', '1', '1', '1', '2', '2', '2', '2', '2', '2', 'f', 'F'], hexValue c ≠ none :=
  ⟨by decide, by simp [hexValue]⟩

theorem witness_host_reject : hostAction [['a'], ['b']] = .reject .usage := by decide

theorem witness_host_accepts : ∀ e, hostAction [] ≠ .reject e := fun _ h => by cases h

theorem witness_host_input : hostInput [] beef = some beef := by decide

end Sys2Proof.Tests
end

section
/-! SUPPORT. Facts the statements about the state rest on: which phase selects which operation, which bits the
check-bit operations read and write, and how each operation carries the invariant of an invocation on. -/

namespace Sys2Proof.Machine

open Sys2Proof.Claims

/-! ### Phases and operations -/

theorem encodeOp_of_decodeOp : ∀ op : OpIndex, ∀ i ∈ decodeOp op, encodeOp i = op := by decide

theorem decodeOp_eq_none_of_nine_lt : ∀ op : OpIndex, 9 < op.toNat → decodeOp op = none := by decide

theorem toNat_encodeOp_le_nine (i : Instr) : (encodeOp i).toNat ≤ 9 := by
  cases i <;> decide

/-- A CODE operation for position `2 ^ e` is the one at phase `e + 1`. -/
theorem codeOp_position_phase : ∀ p ∈ codeOps.zip codePositions,
    ∃ e < 6, p.2 = 2 ^ e ∧ (encodeOp p.1).toNat = e + 1 := by decide

/-- A step that goes on ran the operation whose index stands in `PH`. -/
theorem step_next_encodeOp {s t : State} (h : step s = .next t) :
    ∃ i, s.ph = encodeOp i ∧ exec i s = .next t := by
  obtain ⟨i, hi, ht⟩ := step_next_cases h
  exact ⟨i, (encodeOp_of_decodeOp _ i hi).symm, ht⟩

theorem step_of_decodeOp_none {s : State} (h : decodeOp s.ph = none) :
    step s = .refused (if s.ph = 10 then .invocationOver else .reservedIndex s.ph) := by
  simp only [step, selectOp, h]

theorem toNat_nextPhase {ph : OpIndex} (h : ph.toNat < 15) : (nextPhase ph).toNat = ph.toNat + 1 := by
  rw [nextPhase_of_ne (by rintro rfl; exact absurd h (by decide))]
  bv_omega

/-! ### Data positions and covers -/

theorem mem_dataPositions {k : Nat} : k ∈ dataPositions ↔ k < 64 ∧ k ≠ 0 ∧ k ∉ codePositions := by
  simp only [dataPositions, List.mem_filter, List.mem_range, classOf]
  by_cases h0 : k = 0
  · simp [h0]
  · by_cases hc : k ∈ codePositions <;> simp [h0, hc]

theorem nodup_cover (i : Nat) : (cover i).Nodup := List.nodup_range.filter _

theorem mem_cover_two_pow {e j : Nat} : j ∈ cover (2 ^ e) ↔ j < 64 ∧ j.testBit e = true := by
  simp only [cover, List.mem_filter, List.mem_range, Bool.and_eq_true, decide_eq_true_eq, bne_iff_ne,
    Nat.two_pow_and]
  cases hb : j.testBit e
  · simp
  · simpa using fun _ => Nat.ge_two_pow_of_testBit hb

theorem sameData_setCodeBit {i : Nat} (hi : i ∈ codePositions) (r : Word64) : sameData (setCodeBit i r) r := by
  intro k hk
  obtain ⟨hlt, -, hcode⟩ := mem_dataPositions.mp hk
  rw [getLsbD_setCodeBit i r k hlt, if_neg]
  rintro rfl
  exact hcode hi

theorem sameData_setParityBit (r : Word64) : sameData (setParityBit r) r := by
  intro k hk
  obtain ⟨hlt, hne, -⟩ := mem_dataPositions.mp hk
  rw [getLsbD_setParityBit r k hlt, if_neg hne]

theorem sameData_refl (r : Word64) : sameData r r := fun _ _ => rfl

theorem sameData_trans {a b c : Word64} (hab : sameData a b) (hbc : sameData b c) : sameData a c :=
  fun k hk => (hab k hk).trans (hbc k hk)

/-- ENCODE writes no data position (10_state.md R12). -/
theorem sameData_encodeReg (r : Word64) : sameData (encodeReg r) r := by
  have code : ∀ i ∈ codePositions, ∀ {w}, sameData w r → sameData (setCodeBit i w) r :=
    fun i hi w hw => sameData_trans (sameData_setCodeBit hi w) hw
  exact sameData_trans (sameData_setParityBit _) <|
    code 32 (by decide) <| code 16 (by decide) <| code 8 (by decide) <|
    code 4 (by decide) <| code 2 (by decide) <| code 1 (by decide) (sameData_refl r)

/-- `unpack` undoes `pack` (40_builder.md R53). -/
theorem unpack_pack (r : Word64) : unpack (pack r) = r := by
  refine BitVec.eq_of_getLsbD_eq fun k hk => ?_
  have index : 56 - 8 * (7 - k / 8) + (7 - (7 - k % 8)) = k := by omega
  rw [getLsbD_unpack _ k hk, byteBit_pack r _ _ (by omega) (by omega), index]

/-! ### The equations the check bits meet -/

/-- A position that holds the XOR of the rest of its set makes the XOR of the set 0. -/
theorem xorOver_eq_false_of_check_bit {S : List Nat} (hS : S.Nodup) {k : Nat} (hk : k ∈ S) {r r' : Word64}
    (hbit : r'.getLsbD k = xorOver (S.filter (fun j => j != k)) r)
    (hrest : ∀ j ∈ S, j ≠ k → r'.getLsbD j = r.getLsbD j) : xorOver S r' = false := by
  have split : S.Perm (k :: S.filter (fun j => j != k)) := hS.erase_eq_filter k ▸ List.perm_cons_erase hk
  have rest : xorOver (S.filter (fun j => j != k)) r' = xorOver (S.filter (fun j => j != k)) r := by
    refine xorOver_congr _ _ _ fun j hj => ?_
    obtain ⟨hjS, hjk⟩ := List.mem_filter.mp hj
    exact hrest j hjS (by simpa using hjk)
  rw [xorOver_perm split, xorOver_cons, hbit, rest, Bool.xor_self]

/-- Each CODE operation makes the equation of its position hold (42_parity_generator.md R72 item 2). -/
theorem codeEquation_setCodeBit_self {i : Nat} (hi : i ∈ cover i) (r : Word64) :
    codeEquation i (setCodeBit i r) := by
  refine xorOver_eq_false_of_check_bit (r := r) (nodup_cover i) hi ?_ fun j hj hne => ?_
  · rw [getLsbD_setCodeBit i r i (mem_cover_lt i i hi), if_pos rfl, inputs]
  · rw [getLsbD_setCodeBit i r j (mem_cover_lt i j hj), if_neg hne]

theorem codeEquation_setCodeBit_of_not_mem {i k : Nat} (hk : k ∉ cover i) {r : Word64} (h : codeEquation i r) :
    codeEquation i (setCodeBit k r) := by
  refine (xorOver_congr _ _ _ fun j hj => ?_).trans h
  rw [getLsbD_setCodeBit k r j (mem_cover_lt i j hj), if_neg]
  rintro rfl
  exact hk hj

theorem codeEquation_setParityBit {i : Nat} (h0 : 0 ∉ cover i) {r : Word64} (h : codeEquation i r) :
    codeEquation i (setParityBit r) := by
  refine (xorOver_congr _ _ _ fun j hj => ?_).trans h
  rw [getLsbD_setParityBit r j (mem_cover_lt i j hj), if_neg]
  rintro rfl
  exact h0 hj

/-- PARITY makes the parity of the whole register even (42_parity_generator.md R72 item 1). -/
theorem parityEquation_setParityBit (r : Word64) : parityEquation (setParityBit r) := by
  refine xorOver_eq_false_of_check_bit (k := 0) (r := r) List.nodup_range (by simp) ?_ fun j hj hne => ?_
  · rw [getLsbD_setParityBit r 0 (by decide), if_pos rfl]
  · rw [getLsbD_setParityBit r j (List.mem_range.mp hj), if_neg hne]

/-! ### The invariant, one operation at a time -/

/-- The operations at phases 0 to 7 write `R` alone. The invariant goes on if the new register holds the buffer's data
bits and meets the equations that are due one phase later. -/
theorem PhaseInv.withR_advance {s : State} (h : PhaseInv s) {w : Word64} (hph : s.ph.toNat ≤ 7)
    (hdata : ∃ L, Memory.block s.buf = some L ∧ sameData w (unpack L))
    (hcode : ∀ e < 6, e + 1 ≤ s.ph.toNat → codeEquation (2 ^ e) w)
    (hparity : s.ph.toNat = 7 → parityEquation w) : PhaseInv (s.withR w).advance := by
  have hlt : s.ph.toNat < 15 := by omega
  have hnext : (s.withR w).advance.ph.toNat = s.ph.toNat + 1 := toNat_nextPhase hlt
  exact {
    wf := h.wf
    phLe := by omega
    zeroAtStart := fun h0 => by bv_omega
    dataBits := fun _ => hdata
    codeBits := fun e he hle => hcode e he (by omega)
    evenParity := fun hle => hparity (by omega)
    packed := fun hle => by omega
    fieldsUnset := fun _ => h.fieldsUnset (by omega)
    fieldsSet := fun h10 => by bv_omega }

theorem PhaseInv.after_build {s : State} (h : PhaseInv s) {L : Block} (hph : s.ph.toNat = 0)
    (hL : Memory.block s.buf = some L) : PhaseInv (s.withR (unpack L)).advance :=
  h.withR_advance (by omega) ⟨L, hL, sameData_refl _⟩ (fun _ _ hle => by omega) (fun h7 => by omega)

theorem PhaseInv.after_code {s : State} (h : PhaseInv s) {e : Nat} (he : e < 6) (hph : s.ph.toNat = e + 1) :
    PhaseInv (s.withR (setCodeBit (2 ^ e) s.r)).advance := by
  have hcode : ∀ e < 6, 2 ^ e ∈ codePositions := by decide
  have hlt : 2 ^ e < 64 := Nat.pow_lt_pow_right (by decide) he
  obtain ⟨L, hL, hdata⟩ := h.dataBits (by omega)
  refine h.withR_advance (by omega) ⟨L, hL, sameData_trans (sameData_setCodeBit (hcode e he) _) hdata⟩ ?_
    (fun h7 => by omega)
  intro e' he' hle
  by_cases heq : e' = e
  · subst heq
    exact codeEquation_setCodeBit_self (mem_cover_two_pow.mpr ⟨hlt, Nat.testBit_two_pow_self⟩) s.r
  · have hnot : 2 ^ e ∉ cover (2 ^ e') := fun hm => by
      simp [Ne.symm heq, mem_cover_two_pow] at hm
    exact codeEquation_setCodeBit_of_not_mem hnot (h.codeBits e' he' (by omega))

theorem PhaseInv.after_parity {s : State} (h : PhaseInv s) (hph : s.ph.toNat = 7) :
    PhaseInv (s.withR (setParityBit s.r)).advance := by
  obtain ⟨L, hL, hdata⟩ := h.dataBits (by omega)
  refine h.withR_advance (by omega) ⟨L, hL, sameData_trans (sameData_setParityBit _) hdata⟩ ?_
    (fun _ => parityEquation_setParityBit s.r)
  intro e he _
  have hnot : 0 ∉ cover (2 ^ e) := fun hm => by simp [mem_cover_two_pow] at hm
  exact codeEquation_setParityBit hnot (h.codeBits e he (by omega))

theorem PhaseInv.after_pack {s : State} (h : PhaseInv s) (hph : s.ph.toNat = 8) :
    PhaseInv (s.withBuf (Memory.putBlock s.buf (pack s.r))).advance := by
  have hlt : s.ph.toNat < 15 := by omega
  have hnext : (s.withBuf (Memory.putBlock s.buf (pack s.r))).advance.ph.toNat = 9 :=
    (toNat_nextPhase hlt).trans (congrArg (· + 1) hph)
  have hblock := Memory.block_putBlock s.buf (pack s.r)
  exact {
    wf := Memory.wf_putBlock s.buf _ h.wf
    phLe := by omega
    zeroAtStart := fun h0 => by bv_omega
    dataBits := fun _ => ⟨_, hblock, by rw [unpack_pack]; exact sameData_refl _⟩
    codeBits := fun e he _ => h.codeBits e he (by omega)
    evenParity := fun _ => h.evenParity (by omega)
    packed := fun _ => hblock
    fieldsUnset := fun _ => h.fieldsUnset (by omega)
    fieldsSet := fun h10 => by bv_omega }

theorem PhaseInv.after_report {s : State} (h : PhaseInv s) {L : Block} (hph : s.ph.toNat = 9)
    (hL : Memory.block s.buf = some L) : PhaseInv (s.withFields (field1 L) (field0 L)).advance := by
  have hlt : s.ph.toNat < 15 := by omega
  have hnext : (s.withFields (field1 L) (field0 L)).advance.ph.toNat = 10 :=
    (toNat_nextPhase hlt).trans (congrArg (· + 1) hph)
  have hpacked := h.packed (by omega)
  obtain rfl : pack s.r = L := Option.some.inj (hpacked.symm.trans hL)
  exact {
    wf := h.wf
    phLe := by omega
    zeroAtStart := fun h0 => by bv_omega
    dataBits := fun _ => h.dataBits (by omega)
    codeBits := fun e he _ => h.codeBits e he (by omega)
    evenParity := fun _ => h.evenParity (by omega)
    packed := fun _ => hpacked
    fieldsUnset := fun hle => by omega
    fieldsSet := fun _ => ⟨rfl, rfl⟩ }

end Sys2Proof.Machine
end

section
/-! The statements about the state of the block (10_state.md), settled. -/

namespace Sys2Proof.Proofs

open Sys2Proof.Machine Sys2Proof.Claims

/-- Settles O47: the invariant is carried on by each operation at the phase that selects it. -/
theorem phaseInvariantIsKept : Obligations.PhaseInvariantIsKept := by
  intro s t h hstep
  obtain ⟨i, hph, hexec⟩ := step_next_encodeOp hstep
  obtain ⟨L, rfl, hL, rfl⟩ | ⟨k, hk, rfl⟩ | ⟨rfl, rfl⟩ | ⟨rfl, rfl⟩ | ⟨L, rfl, hL, rfl⟩ := exec_next_cases hexec
  · exact h.after_build (congrArg BitVec.toNat hph) hL
  · obtain ⟨e, he, rfl, hop⟩ := codeOp_position_phase _ hk
    exact h.after_code he (hph ▸ hop)
  · exact h.after_parity (congrArg BitVec.toNat hph)
  · exact h.after_pack (congrArg BitVec.toNat hph)
  · exact h.after_report (congrArg BitVec.toNat hph) hL

/-- Settles O6: an operation is selected by an index of at most 9, and every operation ends with `PH <- PH + 1`. -/
theorem everyStepAdvancesPhase : Obligations.EveryStepAdvancesPhase := by
  intro s t hstep
  obtain ⟨i, hph, hexec⟩ := step_next_encodeOp hstep
  have hle : s.ph.toNat ≤ 9 := hph ▸ toNat_encodeOp_le_nine i
  exact ⟨hle, exec_next_ph hexec ▸ toNat_nextPhase (by omega)⟩

/-- Settles O20: what an operation other than BUILD can do, case by case, and ENCODE after BUILD. -/
theorem dataBitsAreNeverRewritten : Obligations.DataBitsAreNeverRewritten := by
  constructor
  · intro i s t hi hexec
    obtain ⟨L, hbuild, -, -⟩ | ⟨k, hk, rfl⟩ | ⟨-, rfl⟩ | ⟨-, rfl⟩ | ⟨L, -, -, rfl⟩ := exec_next_cases hexec
    · exact absurd hbuild hi
    · exact sameData_setCodeBit (List.of_mem_zip hk).2 s.r
    · exact sameData_setParityBit s.r
    · exact sameData_refl s.r
    · exact sameData_refl s.r
  · intro s L hL
    refine ⟨_, (execSeq_cons_of_next (exec_build_of_block s L hL) _).trans (execSeq_encodeOps _), ?_⟩
    exact sameData_encodeReg (unpack L)

/-- Settles O3: `step` runs what `decodeOp` selects. -/
theorem stepRunsSelectedOperation : Obligations.StepRunsSelectedOperation :=
  fun _ _ h => step_of_decodeOp h

/-- Settles O5: the indices above 9 decode to nothing, and 10 is told apart from the rest. -/
theorem stepStopsOutsideSequence : Obligations.StepStopsOutsideSequence := by
  intro s
  constructor
  · intro h
    rw [step_of_decodeOp_none (decodeOp_eq_none_of_nine_lt _ (by omega)), if_pos (BitVec.eq_of_toNat_eq h)]
  · intro h
    rw [step_of_decodeOp_none (decodeOp_eq_none_of_nine_lt _ (by omega)), if_neg]
    intro h10
    rw [h10] at h
    exact absurd h (by decide)

/-- Settles O7: the values `State.reset` writes out, an empty buffer among them. -/
theorem resetHasNoValues : Obligations.ResetHasNoValues :=
  ⟨rfl, rfl, rfl, rfl, fun _ => rfl, Memory.wf_nil⟩

/-- Settles O10: without one of its bytes the buffer has no block, which BUILD and REPORT both read. -/
theorem readOfNoValueIsRefused : Obligations.ReadOfNoValueIsRefused := by
  intro s hs
  have hnone : Memory.block s.buf = none := (Memory.block_eq_none s.buf).mpr hs
  exact ⟨exec_build_of_none s hnone, exec_report_of_none s hnone⟩

end Sys2Proof.Proofs
end

section
/-! SUPPORT. Facts the statements about the buffer rest on: the accesses that are not whole, a write over what a
write left, and the states of an invocation one operation at a time. -/

namespace Sys2Proof.Machine

/-! ### The accesses that are not whole -/

section
variable (s : State) {a n : Nat} (L : Block)

theorem memRead_of_beyond (h : 8 < a + n) : memRead s a n = .fault (.noSuchAddress a) := by
  rw [memRead, if_neg (by omega), if_neg (by omega)]

theorem memWrite_of_beyond (h : 8 < a + n) : memWrite s a n L = .fault (.noSuchAddress a) := by
  rw [memWrite, if_neg (by omega), if_neg (by omega)]

theorem memRead_of_partial (h : ¬ (a = 0 ∧ n = 8)) (hle : a + n ≤ 8) :
    memRead s a n = .refused (.partialAccess a n) := by
  rw [memRead, if_neg h, if_pos hle]

theorem memWrite_of_partial (h : ¬ (a = 0 ∧ n = 8)) (hle : a + n ≤ 8) :
    memWrite s a n L = .refused (.partialAccess a n) := by
  rw [memWrite, if_neg h, if_pos hle]

end

/-! ### A whole write over a whole write -/

/-- Writes above the first listed address leave that entry where it is. -/
theorem Memory.writeList_cons_of_lt (l : List Byte) : ∀ {c : Host.Cell} (m : List Host.Cell) {a : Nat}, c.1 < a →
    Memory.writeList (c :: m) a l = c :: Memory.writeList m a l := by
  induction l with
  | nil => exact fun _ _ _ => rfl
  | cons v l ih =>
    intro c m a h
    have hwrite : Memory.write (c :: m) a v = c :: Memory.write m a v := by
      rw [Memory.write, if_neg (by omega), if_neg (by omega)]
    rw [Memory.writeList, hwrite, ih _ (by omega), Memory.writeList]

theorem Memory.writeList_nil_cons (a : Nat) (v : Byte) (l : List Byte) :
    Memory.writeList [] a (v :: l) = (a, v) :: Memory.writeList [] (a + 1) l :=
  Memory.writeList_cons_of_lt l [] (Nat.lt_succ_self a)

theorem Memory.writeList_cons_self (m : List Host.Cell) (a : Nat) (w v : Byte) (l : List Byte) :
    Memory.writeList ((a, w) :: m) a (v :: l) = (a, v) :: Memory.writeList m (a + 1) l := by
  have hwrite : Memory.write ((a, w) :: m) a v = (a, v) :: m := by
    rw [Memory.write, if_neg (Nat.lt_irrefl a), if_pos rfl]
  rw [Memory.writeList, hwrite, Memory.writeList_cons_of_lt l m (Nat.lt_succ_self a)]

/-- As many bytes written over bytes leave no trace of the earlier ones. -/
theorem Memory.writeList_writeList (l : List Byte) : ∀ (l' : List Byte) (a : Nat), l.length = l'.length →
    Memory.writeList (Memory.writeList [] a l) a l' = Memory.writeList [] a l' := by
  induction l with
  | nil =>
    intro l' a _
    rfl
  | cons w l ih =>
    intro l' a hlen
    cases l' with
    | nil => cases hlen
    | cons v l' =>
      rw [Memory.writeList_nil_cons, Memory.writeList_cons_self, Memory.writeList_nil_cons,
        ih l' (a + 1) (Nat.succ.inj hlen)]

theorem Memory.putBlock_putBlock (L M : Block) :
    Memory.putBlock (Memory.putBlock [] L) M = Memory.putBlock [] M :=
  Memory.writeList_writeList L.toList M.toList 0 (by simp)

/-! ### The invocation, one operation at a time -/

theorem nextPhase_ofNat {p : Nat} (h : p < 15) : nextPhase (BitVec.ofNat 4 p) = BitVec.ofNat 4 (p + 1) := by
  have hne : BitVec.ofNat 4 p ≠ 15 := by bv_omega
  rw [nextPhase_of_ne hne]
  bv_omega

section
variable (L : Block) {p : Nat}

theorem block_invocationState :
    Memory.block (invocationState L p).buf = some (if p ≤ 8 then L else drvgenBytes L) :=
  Memory.block_putBlock [] _

/-- The operations at phases 0 to 7 write `R` alone (20_memory.md R29). -/
theorem invocationState_withR_advance (hp : p ≤ 7) :
    ((invocationState L p).withR (phaseReg L (p + 1))).advance = invocationState L (p + 1) := by
  refine State.ext_fields ?_ rfl ?_ ?_ (nextPhase_ofNat (by omega))
  · simp [invocationState_buf, show p ≤ 8 by omega, show p < 8 by omega]
  · simp [invocationState_drv1, show p ≤ 9 by omega, show p < 9 by omega]
  · simp [invocationState_drv0, show p ≤ 9 by omega, show p < 9 by omega]

/-- PACK replaces the input by the output (43_packer.md R79). -/
theorem invocationState_pack_advance :
    ((invocationState L 8).withBuf
      (Memory.putBlock (invocationState L 8).buf (pack (invocationState L 8).r))).advance = invocationState L 9 :=
  State.ext_fields (Memory.putBlock_putBlock L (drvgenBytes L)) rfl rfl rfl (nextPhase_ofNat (p := 8) (by decide))

/-- REPORT sets the fields from the output. -/
theorem invocationState_report_advance :
    ((invocationState L 9).withFields (field1 (drvgenBytes L)) (field0 (drvgenBytes L))).advance =
      invocationState L 10 :=
  State.ext_fields rfl rfl rfl rfl (nextPhase_ofNat (p := 9) (by decide))

theorem step_invocationState_of_decodeOp {i : Instr} (h : decodeOp (BitVec.ofNat 4 p) = some i) :
    step (invocationState L p) = exec i (invocationState L p) :=
  step_of_decodeOp h

/-- An operation that writes the register the invocation holds next leads to its next state. -/
theorem step_invocationState_of_withR {i : Instr} (hp : p ≤ 7) (h : decodeOp (BitVec.ofNat 4 p) = some i)
    (hexec : exec i (invocationState L p) = .next ((invocationState L p).withR (phaseReg L (p + 1))).advance) :
    step (invocationState L p) = .next (invocationState L (p + 1)) := by
  rw [step_invocationState_of_decodeOp L h, hexec, invocationState_withR_advance L hp]

/-- Every step of an invocation leads to the next of its states. -/
theorem step_invocationState (hp : p < 10) : step (invocationState L p) = .next (invocationState L (p + 1)) := by
  interval_cases p
  · exact step_invocationState_of_withR L (i := .build) (by decide) rfl
      (exec_build_of_block _ L (block_invocationState L))
  · exact step_invocationState_of_withR L (i := .code1) (by decide) rfl (exec_code1 _)
  · exact step_invocationState_of_withR L (i := .code2) (by decide) rfl (exec_code2 _)
  · exact step_invocationState_of_withR L (i := .code4) (by decide) rfl (exec_code4 _)
  · exact step_invocationState_of_withR L (i := .code8) (by decide) rfl (exec_code8 _)
  · exact step_invocationState_of_withR L (i := .code16) (by decide) rfl (exec_code16 _)
  · exact step_invocationState_of_withR L (i := .code32) (by decide) rfl (exec_code32 _)
  · exact step_invocationState_of_withR L (i := .parity) (by decide) rfl (exec_parity _)
  · rw [step_invocationState_of_decodeOp L (i := .pack) rfl, exec_pack, invocationState_pack_advance]
  · rw [step_invocationState_of_decodeOp L (i := .report) rfl, exec_report_of_block _ _ (block_invocationState L)]
    exact congrArg Host.Outcome.next (invocationState_report_advance L)

/-- From the last of its states an invocation takes no step (10_state.md R17). -/
theorem step_invocationState_ten : step (invocationState L 10) = .refused .invocationOver := by
  have hten : (invocationState L 10).ph = 10 := rfl
  rw [step_of_decodeOp_none (hten ▸ rfl), if_pos hten]

end

end Sys2Proof.Machine
end

section
/-! The statements about the byte buffer and what an invocation makes of it (20_memory.md), settled. -/

namespace Sys2Proof.Proofs

open Sys2Proof.Machine Sys2Proof.Claims

/-- Settles O50: the first ten states step each to the next, and the eleventh steps nowhere. -/
theorem stepsFollowTheInvocation : Obligations.StepsFollowTheInvocation := by
  intro s L
  refine ⟨rfl, fun p hp => step_invocationState L hp, ?_⟩
  rintro u t ⟨p, hp, rfl⟩ hstep
  obtain hlt | rfl := hp.lt_or_eq
  · rw [step_invocationState L hlt] at hstep
    cases hstep
    exact ⟨p + 1, hlt, rfl⟩
  · rw [step_invocationState_ten] at hstep
    cases hstep

/-- Settles O51: PACK alone writes the buffer, and its whole write keeps the form. -/
theorem bufferStaysCanonical : Obligations.BufferStaysCanonical := by
  have keeps : ∀ (i : Instr) (s t : State), Memory.wf s.buf → exec i s = .next t → Memory.wf t.buf := by
    intro i s t hwf hexec
    obtain ⟨L, -, -, rfl⟩ | ⟨k, -, rfl⟩ | ⟨-, rfl⟩ | ⟨-, rfl⟩ | ⟨L, -, -, rfl⟩ := exec_next_cases hexec
    · exact hwf
    · exact hwf
    · exact hwf
    · exact Memory.wf_putBlock s.buf _ hwf
    · exact hwf
  refine ⟨keeps, fun s t hwf hstep => ?_⟩
  obtain ⟨i, -, hexec⟩ := step_next_cases hstep
  exact keeps i s t hwf hexec

/-- Settles O22: an access that is not whole is refused or faults, and the whole read gives what the whole write
left. -/
theorem onlyWholeAccessHasMeaning : Obligations.OnlyWholeAccessHasMeaning := by
  intro s a n L
  refine ⟨fun h => ?_, fun h => ⟨memRead_of_beyond s h, memWrite_of_beyond s L h⟩, ?_⟩
  · obtain hle | hlt := le_or_gt (a + n) 8
    · rw [memRead_of_partial s h hle, memWrite_of_partial s L h hle]
      exact ⟨nofun, nofun⟩
    · rw [memRead_of_beyond s hlt, memWrite_of_beyond s L hlt]
      exact ⟨nofun, nofun⟩
  · exact ⟨_, memWrite_whole s L, memRead_of_block _ L (Memory.block_putBlock s.buf L)⟩

end Sys2Proof.Proofs
end

section
/-! SUPPORT. Facts the statements about the encoding rest on: the decoder and the encoder of an index, the word views
and the fields bit by bit, codewords, and the hex text of a block. -/

namespace Sys2Proof.Machine

open Sys2Proof.Claims

/-! ### The operation index -/

theorem decodeOp_encodeOp (i : Instr) : decodeOp (encodeOp i) = some i := by
  cases i <;> rfl

theorem decodeOp_eq_some {op : OpIndex} {i : Instr} : decodeOp op = some i ↔ op = encodeOp i := by
  refine ⟨fun h => (encodeOp_of_decodeOp op i h).symm, ?_⟩
  rintro rfl
  exact decodeOp_encodeOp i

/-- What the byte decoder accepts: one byte below 16 whose low four bits name an operation (30_encoding.md R44). -/
theorem decode_eq_ok {bytes rest : List Byte} {i : Instr} :
    decode bytes = .ok (i, rest) ↔
      ∃ b : Byte, bytes = b :: rest ∧ b.toNat < 16 ∧ decodeOp (b.setWidth 4) = some i := by
  cases bytes with
  | nil => simp [decode]
  | cons b bs =>
    by_cases hb : b.toNat < 16
    · cases hop : decodeOp (b.setWidth 4) with
      | none => simp [decode, hb, hop]
      | some j => simp [decode, hb, hop, and_comm]
    · simp [decode, hb]

/-- A byte is the encoding of an operation exactly when the decoder reads that operation from it. -/
theorem eq_setWidth_encodeOp {b : Byte} {i : Instr} :
    b = (encodeOp i).setWidth 8 ↔ b.toNat < 16 ∧ decodeOp (b.setWidth 4) = some i := by
  rw [decodeOp_eq_some]
  bv_omega

theorem decode_eq_ok_iff_encode {bytes rest : List Byte} {i : Instr} :
    decode bytes = .ok (i, rest) ↔ bytes = encode i ++ rest := by
  simp only [decode_eq_ok, ← eq_setWidth_encodeOp, encode]
  simp

theorem decodeProgram_cons_eq_ok {op : OpIndex} {indices : List OpIndex} {ops : List Instr} :
    decodeProgram (op :: indices) = .ok ops ↔
      ∃ i is, decodeOp op = some i ∧ decodeProgram indices = .ok is ∧ ops = i :: is := by
  rw [decodeProgram]
  cases decodeOp op with
  | none => simp
  | some i =>
    cases decodeProgram indices with
    | error e => simp
    | ok is => simp [eq_comm]

theorem decodeProgram_eq_ok {indices : List OpIndex} : ∀ {ops : List Instr},
    decodeProgram indices = .ok ops ↔ indices = encodeProgram ops := by
  induction indices with
  | nil => simp [decodeProgram, encodeProgram, eq_comm]
  | cons op indices ih =>
    intro ops
    simp only [decodeProgram_cons_eq_ok, decodeOp_eq_some, ih]
    cases ops <;> simp [encodeProgram, and_comm, and_assoc]

/-! ### The word views and the fields -/

/-- Appending a byte below a word. -/
theorem toNat_append_byte {n : Nat} (x : BitVec n) (b : Byte) : (x ++ b).toNat = x.toNat * 2 ^ 8 + b.toNat := by
  rw [BitVec.toNat_append, ← Nat.shiftLeft_add_eq_or_of_lt b.isLt, Nat.shiftLeft_eq]

/-- A word is the sum of its bits, each at its weight (30_encoding.md R40). -/
theorem toNat_setWidth_eq_sum_bits {n : Nat} (x : BitVec n) (k : Nat) :
    (x.setWidth k).toNat = ((List.range k).map (fun j => (x.getLsbD j).toNat * 2 ^ j)).sum := by
  induction k with
  | zero => rw [BitVec.toNat_of_zero_length rfl, List.range_zero, List.map_nil, List.sum_nil]
  | succ k ih =>
    rw [BitVec.setWidth_succ, BitVec.toNat_cons', ih, List.range_succ, List.map_append, List.sum_append,
      Nat.shiftLeft_eq, Nat.add_comm]
    simp

theorem toNat_eq_sum_bits {n : Nat} (x : BitVec n) :
    x.toNat = ((List.range n).map (fun j => (x.getLsbD j).toNat * 2 ^ j)).sum := by
  rw [← toNat_setWidth_eq_sum_bits, BitVec.setWidth_eq]

/-- `k xor 7` counts from the other end of the byte that `k` lies in. -/
theorem xor_seven_bounds : ∀ k < 64, k ^^^ 7 < 64 ∧ (k ^^^ 7) / 8 = k / 8 ∧ (k ^^^ 7) % 8 = 7 - k % 8 := by
  decide

theorem getLsbD_unpack_eq_bufferWord (L : Block) {k : Nat} (hk : k < 64) :
    (unpack L).getLsbD k = (bufferWord L).getLsbD (k ^^^ 7) := by
  obtain ⟨hlt, hdiv, hmod⟩ := xor_seven_bounds k hk
  rw [getLsbD_unpack L k hk, getLsbD_bufferWord L _ hlt, hdiv, hmod]

theorem getLsbD_bufferWord_pack (r : Word64) {p : Nat} (hp : p < 64) :
    (bufferWord (pack r)).getLsbD p = r.getLsbD (p ^^^ 7) := by
  have h := getLsbD_unpack_eq_bufferWord (pack r) (xor_seven_bounds p hp).1
  rw [unpack_pack, Nat.xor_xor_cancel_right] at h
  exact h.symm

/-- Bits of the buffer word within one byte. -/
theorem extractLsb'_bufferWord (L : Block) (i s w : Nat) (hi : i < 8) (hs : s + w ≤ 8) :
    (bufferWord L).extractLsb' (56 - 8 * i + s) w = (L[i]).extractLsb' s w := by
  refine BitVec.eq_of_getLsbD_eq fun j hj => ?_
  have hbyte : 7 - (56 - 8 * i + s + j) / 8 = i := by omega
  have hbit : (56 - 8 * i + s + j) % 8 = s + j := by omega
  rw [BitVec.getLsbD_extractLsb', BitVec.getLsbD_extractLsb', getLsbD_bufferWord L _ (by omega), hbyte, hbit,
    byteBit_getElem L i _ hi]

/-- A byte of a block as bits of the buffer word. -/
theorem getElem_eq_extractLsb'_bufferWord (L : Block) (i : Nat) (hi : i < 8) :
    L[i] = (bufferWord L).extractLsb' (56 - 8 * i) 8 := by
  rw [← Nat.add_zero (56 - 8 * i), extractLsb'_bufferWord L i 0 8 hi (by omega), BitVec.extractLsb'_eq_self]

/-- Four bytes taken from a word in a row are the 32 bits they were. -/
theorem bigEndian32_extractLsb' {n : Nat} (x : BitVec n) (a : Nat) :
    bigEndian32 (x.extractLsb' (a + 24) 8) (x.extractLsb' (a + 16) 8) (x.extractLsb' (a + 8) 8)
      (x.extractLsb' a 8) = x.extractLsb' a 32 := by
  rw [bigEndian32, BitVec.extractLsb'_append_extractLsb'_eq_extractLsb' (show a + 24 = a + 16 + 8 from rfl),
    BitVec.extractLsb'_append_extractLsb'_eq_extractLsb' (show a + 16 = a + 8 + 8 from rfl),
    BitVec.extractLsb'_append_extractLsb'_eq_extractLsb' rfl]

/-- `DRV1` is the upper half of `V` (30_encoding.md R41). -/
theorem field1_eq_extractLsb' (L : Block) : field1 L = (bufferWord L).extractLsb' 32 32 := by
  simp only [field1, getElem_eq_extractLsb'_bufferWord]
  exact bigEndian32_extractLsb' (bufferWord L) 32

/-- `DRV0` is the lower half of `V` (30_encoding.md R41). -/
theorem field0_eq_extractLsb' (L : Block) : field0 L = (bufferWord L).extractLsb' 0 32 := by
  simp only [field0, getElem_eq_extractLsb'_bufferWord]
  exact bigEndian32_extractLsb' (bufferWord L) 0

/-- Bits of bits of a word are bits of the word. -/
theorem extractLsb'_extractLsb'_of_add_le {n : Nat} (x : BitVec n) (a : Nat) {m s w : Nat} (h : s + w ≤ m) :
    (x.extractLsb' a m).extractLsb' s w = x.extractLsb' (a + s) w := by
  refine BitVec.eq_of_getLsbD_eq fun j hj => ?_
  simp [hj, show s + j < m by omega, Nat.add_assoc]

theorem extractLsb'_field1 (L : Block) {i s w : Nat} (hi : i < 4) (hs : s + w ≤ 8) :
    (field1 L).extractLsb' (24 - 8 * i + s) w = (L[i]).extractLsb' s w := by
  rw [field1_eq_extractLsb', extractLsb'_extractLsb'_of_add_le _ _ (by omega),
    ← extractLsb'_bufferWord L i s w (by omega) hs]
  congr 1
  omega

theorem extractLsb'_field0 (L : Block) {i s w : Nat} (hi : i < 4) (hs : s + w ≤ 8) :
    (field0 L).extractLsb' (24 - 8 * i + s) w = (L[4 + i]).extractLsb' s w := by
  rw [field0_eq_extractLsb', extractLsb'_extractLsb'_of_add_le _ _ (by omega),
    ← extractLsb'_bufferWord L (4 + i) s w (by omega) hs]
  congr 1
  omega

theorem getLsbD_field1 (L : Block) {t : Nat} (ht : t < 32) :
    (field1 L).getLsbD t = (bufferWord L).getLsbD (32 + t) := by
  simp [field1_eq_extractLsb', ht]

theorem getLsbD_field0 (L : Block) {t : Nat} (ht : t < 32) :
    (field0 L).getLsbD t = (bufferWord L).getLsbD t := by
  simp [field0_eq_extractLsb', ht]

/-! ### The computed bits -/

/-- The relation between the columns of R39: the bit of `V` is the register index with its byte reversed, and the byte
and the bit in it are where that bit of `V` lies (30_encoding.md R37, R40). -/
theorem computedBits_columns : ∀ c ∈ computedBits, c.2.2.2 < 64 ∧ c.2.1 = 7 - c.2.2.2 / 8 ∧ c.2.2.1 = c.2.2.2 % 8 ∧
    c.2.2.2 = c.1 ^^^ 7 ∧ (c.1 < 32 ↔ c.2.2.2 < 32) := by
  decide

/-! ### Codewords -/

/-- Where the XOR of a set is 0, each position of it holds the XOR of the rest. -/
theorem xorOver_filter_ne_of_eq_false {S : List Nat} (hS : S.Nodup) {k : Nat} (hk : k ∈ S) {r : Word64}
    (h : xorOver S r = false) : xorOver (S.filter (fun j => j != k)) r = r.getLsbD k := by
  have split : S.Perm (k :: S.filter (fun j => j != k)) := hS.erase_eq_filter k ▸ List.perm_cons_erase hk
  rw [xorOver_perm split, xorOver_cons] at h
  exact (bne_eq_false_iff_eq.mp h).symm

/-- A CODE operation writes the bit its equation asks for, so it changes nothing where the equation holds. -/
theorem setCodeBit_of_codeEquation {i : Nat} (hi : i ∈ cover i) {r : Word64} (h : codeEquation i r) :
    setCodeBit i r = r := by
  refine BitVec.eq_of_getLsbD_eq fun k hk => ?_
  rw [getLsbD_setCodeBit i r k hk, inputs, xorOver_filter_ne_of_eq_false (nodup_cover i) hi h]
  split
  · next heq => rw [heq]
  · rfl

theorem setParityBit_of_parityEquation {r : Word64} (h : parityEquation r) : setParityBit r = r := by
  refine BitVec.eq_of_getLsbD_eq fun k hk => ?_
  rw [getLsbD_setParityBit r k hk, xorOver_filter_ne_of_eq_false List.nodup_range (by decide) h]
  split
  · next heq => rw [heq]
  · rfl

/-- The covers of the code positions meet no other code position. -/
theorem cover_of_mem_codePositions : ∀ i ∈ codePositions, i ∈ cover i ∧ 0 ∉ cover i ∧
    ∀ k ∈ codePositions, k ≠ i → k ∉ cover i := by
  decide

/-- Once its own CODE operation has run, the equation of a position goes on to hold. -/
theorem codeEquation_foldl_setCodeBit {i : Nat} (hi : i ∈ cover i) {S : List Nat} : ∀ {r : Word64},
    (∀ k ∈ S, k ≠ i → k ∉ cover i) → i ∈ S ∨ codeEquation i r →
      codeEquation i (S.foldl (fun w k => setCodeBit k w) r) := by
  induction S with
  | nil =>
    intro r _ h
    exact h.resolve_left List.not_mem_nil
  | cons k S ih =>
    intro r hS h
    refine ih (fun j hj => hS j (List.mem_cons_of_mem k hj)) ?_
    by_cases hk : k = i
    · subst hk
      exact .inr (codeEquation_setCodeBit_self hi r)
    · have hkept := codeEquation_setCodeBit_of_not_mem (r := r) (hS k List.mem_cons_self hk)
      exact h.imp (fun hmem => List.mem_of_ne_of_mem (Ne.symm hk) hmem) hkept

theorem encodeReg_eq_foldl (r : Word64) :
    encodeReg r = setParityBit (codePositions.foldl (fun w k => setCodeBit k w) r) := rfl

/-- ENCODE answers a codeword, whatever the register held (42_parity_generator.md R72). -/
theorem codeword_encodeReg (r : Word64) : codeword (encodeReg r) := by
  rw [encodeReg_eq_foldl]
  refine ⟨fun i hi => ?_, parityEquation_setParityBit _⟩
  obtain ⟨hself, hzero, hother⟩ := cover_of_mem_codePositions i hi
  exact codeEquation_setParityBit hzero (codeEquation_foldl_setCodeBit hself hother (.inl hi))

/-- ENCODE changes nothing in a codeword. -/
theorem encodeReg_of_codeword {r : Word64} (h : codeword r) : encodeReg r = r := by
  obtain ⟨hcode, hparity⟩ := h
  have fixed : ∀ i ∈ codePositions, setCodeBit i r = r := fun i hi =>
    setCodeBit_of_codeEquation (cover_of_mem_codePositions i hi).1 (hcode i hi)
  rw [encodeReg, fixed 1 (by decide), fixed 2 (by decide), fixed 4 (by decide), fixed 8 (by decide),
    fixed 16 (by decide), fixed 32 (by decide), setParityBit_of_parityEquation hparity]

/-! ### The hex text -/

theorem hexValue_hexDigit : ∀ v : BitVec 4, hexValue (hexDigit v) = some v := by decide

/-- A character stands for the same digit as the lowercase digit of `v` exactly when its value is `v`. -/
theorem sameDigit_hexDigit {v : BitVec 4} {c : Char} : sameDigit (hexDigit v) c ↔ hexValue c = some v := by
  rw [sameDigit, hexValue_hexDigit]
  simp [eq_comm]

/-- A byte and its two nibbles. -/
theorem append_eq_iff_nibbles {hi lo : BitVec 4} {b : Byte} :
    (hi ++ lo : BitVec 8) = b ↔ hi = b.extractLsb' 4 4 ∧ lo = b.extractLsb' 0 4 := by
  constructor
  · rintro rfl
    exact ⟨BitVec.extractLsb'_append_eq_left.symm, BitVec.extractLsb'_append_eq_right.symm⟩
  · rintro ⟨rfl, rfl⟩
    rw [BitVec.extractLsb'_append_extractLsb'_eq_extractLsb' (show 4 = 0 + 4 from rfl)]
    exact BitVec.extractLsb'_eq_self

/-- The hex reader takes two characters for a byte. -/
theorem hexBytes_cons_cons_eq_some {c d : Char} {rest : List Char} {bytes : List Byte} :
    hexBytes (c :: d :: rest) = some bytes ↔ ∃ hi lo bs, hexValue c = some hi ∧ hexValue d = some lo ∧
      hexBytes rest = some bs ∧ bytes = (hi ++ lo : BitVec 8) :: bs := by
  rw [hexBytes]
  split
  · next hi lo bs hc hd hrest => simp [hc, hd, hrest, eq_comm]
  · next hnone =>
    refine ⟨nofun, ?_⟩
    rintro ⟨hi, lo, bs, hc, hd, hrest, -⟩
    exact (hnone hi lo bs hc hd hrest).elim

theorem hexBytes_eq_some_nil {text : List Char} : hexBytes text = some [] ↔ text = [] := by
  match text with
  | [] => simp [hexBytes]
  | [_] => simp [hexBytes]
  | c :: d :: rest => simp [hexBytes_cons_cons_eq_some]

theorem hexBytes_eq_some_cons {text : List Char} {b : Byte} {bytes : List Byte} :
    hexBytes text = some (b :: bytes) ↔ ∃ c d rest, text = c :: d :: rest ∧
      hexValue c = some (b.extractLsb' 4 4) ∧ hexValue d = some (b.extractLsb' 0 4) ∧
      hexBytes rest = some bytes := by
  match text with
  | [] => simp [hexBytes]
  | [_] => simp [hexBytes]
  | c :: d :: rest =>
    simp only [hexBytes_cons_cons_eq_some, List.cons.injEq, @eq_comm _ b, append_eq_iff_nibbles]
    constructor
    · rintro ⟨_, _, _, hc, hd, hrest, ⟨rfl, rfl⟩, rfl⟩
      exact ⟨c, d, rest, ⟨rfl, rfl, rfl⟩, hc, hd, hrest⟩
    · rintro ⟨_, _, _, ⟨rfl, rfl, rfl⟩, hc, hd, hrest⟩
      exact ⟨_, _, _, hc, hd, hrest, ⟨rfl, rfl⟩, rfl⟩

/-- What the hex reader accepts as some bytes: the digits of these bytes, each in either case (30_encoding.md R43). -/
theorem hexBytes_eq_some {bytes : List Byte} : ∀ {text : List Char},
    hexBytes text = some bytes ↔ List.Forall₂ sameDigit (bytes.flatMap byteText) text := by
  induction bytes with
  | nil => simp [hexBytes_eq_some_nil]
  | cons b bytes ih =>
    intro text
    simp only [hexBytes_eq_some_cons, List.flatMap_cons, byteText, List.cons_append, List.nil_append,
      List.forall₂_cons_left_iff, sameDigit_hexDigit, ih]
    constructor
    · rintro ⟨c, d, rest, rfl, hc, hd, hrest⟩
      exact ⟨c, _, hc, ⟨d, rest, hd, hrest, rfl⟩, rfl⟩
    · rintro ⟨c, _, hc, ⟨d, rest, hd, hrest, rfl⟩, rfl⟩
      exact ⟨c, d, rest, rfl, hc, hd, hrest⟩

theorem toList_block (L : Block) : L.toList = [L[0], L[1], L[2], L[3], L[4], L[5], L[6], L[7]] := by
  refine List.ext_getElem (by simp) fun i hi _ => ?_
  rw [Vector.length_toList] at hi
  rw [Vector.getElem_toList]
  interval_cases i <;> rfl

theorem blockOfBytes_toList (L : Block) : blockOfBytes L.toList = some L := by
  rw [toList_block, blockOfBytes]
  exact congrArg some (Vector.toList_inj.mp (toList_block L).symm)

theorem blockOfBytes_eq_some {bytes : List Byte} {L : Block} : blockOfBytes bytes = some L ↔ bytes = L.toList := by
  constructor
  · intro h
    unfold blockOfBytes at h
    split at h
    · cases h
      rfl
    · cases h
  · rintro rfl
    exact blockOfBytes_toList L

/-- The texts that parse to a block (30_encoding.md R43). -/
theorem parseInput_eq_some {text : List Char} {L : Block} :
    parseInput text = some L ↔ List.Forall₂ sameDigit (blockText L) text := by
  rw [blockText, ← hexBytes_eq_some, parseInput]
  cases hexBytes text with
  | none => simp
  | some bytes => simp [blockOfBytes_eq_some]

theorem length_blockText (L : Block) : (blockText L).length = 16 := by
  simp [blockText, toList_block, byteText]

/-- The one argument that is taken as an input: 16 characters that parse (60_exceptions.md R91). The help texts are
shorter. -/
theorem hostAction_eq_givenInput {text : List Char} {L : Block} :
    hostAction [text] = .givenInput L ↔ text.length = 16 ∧ parseInput text = some L := by
  rw [hostAction]
  by_cases hlen : text.length = 16
  · have hhelp : ¬ (text = ['-', '-', 'h', 'e', 'l', 'p'] ∨ text = ['-', 'h']) := by
      rintro (rfl | rfl) <;> exact absurd hlen (by decide)
    rw [if_neg hhelp, if_neg (not_not_intro hlen)]
    cases parseInput text <;> simp [hlen]
  · rw [if_pos hlen]
    split <;> simp [hlen]

/-- The 16 digits of a block are the digits of `V` from the top (30_encoding.md R40). -/
theorem blockText_eq_map_bufferWord (L : Block) :
    blockText L = (List.range 16).map (fun n => hexDigit ((bufferWord L).extractLsb' (60 - 4 * n) 4)) := by
  have digits : ∀ (i : Nat) (hi : i < 8), byteText L[i] =
      [hexDigit ((bufferWord L).extractLsb' (56 - 8 * i + 4) 4),
        hexDigit ((bufferWord L).extractLsb' (56 - 8 * i + 0) 4)] := fun i hi => by
    rw [byteText, extractLsb'_bufferWord L i 4 4 hi (by decide), extractLsb'_bufferWord L i 0 4 hi (by decide)]
  simp only [blockText, toList_block, List.flatMap_cons, digits]
  rfl

end Sys2Proof.Machine
end

section
/-! The statements about the encoding (30_encoding.md), settled. -/

namespace Sys2Proof.Proofs

open Sys2Proof.Machine Sys2Proof.Claims Sys2Proof.Laws

/-- Settles O2: the decoders accept exactly the encodings of what they give. -/
theorem decodeEncodeAgree : Obligations.DecodeEncodeAgree :=
  ⟨fun _ _ _ => decode_eq_ok_iff_encode.mpr rfl, fun _ _ _ h => decode_eq_ok_iff_encode.mp h,
    fun _ => decodeProgram_eq_ok.mpr rfl, fun _ _ h => (decodeProgram_eq_ok.mp h).symm⟩

/-- Settles O26: both words read bit by bit from the bytes of the block, and `V` digit by digit. -/
theorem wordViewsDifferByByteReversal : Obligations.WordViewsDifferByByteReversal := by
  refine ⟨fun L k hk => getLsbD_unpack_eq_bufferWord L hk, fun L => ?_, toNat_eq_sum_bits,
    blockText_eq_map_bufferWord⟩
  simp only [bufferWord, toNat_append_byte]
  ring

/-- Settles O27: a field is a half of `V`, and `V` holds the register with its bytes reversed. -/
theorem fieldBitsAreRegisterBits : Obligations.FieldBitsAreRegisterBits := by
  have byte1 : ∀ (L : Block) (i : Nat) (hi : i < 4), (field1 L).extractLsb' (24 - 8 * i) 8 = L[i] :=
    fun L i hi => (extractLsb'_field1 L hi (s := 0) (by decide)).trans BitVec.extractLsb'_eq_self
  have byte0 : ∀ (L : Block) (i : Nat) (hi : i < 4), (field0 L).extractLsb' (24 - 8 * i) 8 = L[4 + i] :=
    fun L i hi => (extractLsb'_field0 L hi (s := 0) (by decide)).trans BitVec.extractLsb'_eq_self
  have index : ∀ t < 32, (32 + t) ^^^ 7 = 32 + (t ^^^ 7) := by decide
  constructor
  · intro L
    exact ⟨byte1 L 0 (by decide), byte1 L 1 (by decide), byte1 L 2 (by decide), byte1 L 3 (by decide),
      byte0 L 0 (by decide), byte0 L 1 (by decide), byte0 L 2 (by decide), byte0 L 3 (by decide),
      field1_eq_extractLsb' L, field0_eq_extractLsb' L⟩
  · intro r t ht
    rw [getLsbD_field0 _ ht, getLsbD_field1 _ ht, getLsbD_bufferWord_pack r (by omega),
      getLsbD_bufferWord_pack r (by omega), index t ht]
    exact ⟨rfl, rfl⟩

/-- Settles O28: the columns of R39 name one bit of `V`, which is read from its byte and from its field; the masks are
compared with the classes byte by byte. -/
theorem computedBitsInBuffer : Obligations.ComputedBitsInBuffer := by
  refine ⟨fun r c hc => ?_, by decide⟩
  obtain ⟨hlt, hbyte, hbit, hrow, hhalf⟩ := computedBits_columns c hc
  have hword : (bufferWord (pack r)).getLsbD c.2.2.2 = r.getLsbD c.1 := by
    rw [getLsbD_bufferWord_pack r hlt, hrow, Nat.xor_xor_cancel_right]
  refine ⟨?_, hword, ?_⟩
  · rw [hbyte, hbit, ← getLsbD_bufferWord _ _ hlt, hword]
  · split
    · rw [getLsbD_field0 _ (by omega), hword]
    · rw [getLsbD_field1 _ (by omega), Nat.add_sub_cancel' (by omega), hword]

/-- Settles O37: ENCODE answers a codeword, and changes nothing in one. -/
theorem codewordsAreFixedPoints : Obligations.CodewordsAreFixedPoints :=
  fun r => ⟨encodeReg_of_codeword, fun h => h ▸ codeword_encodeReg r⟩

/-- Settles O52: an argument is taken as the input `L` exactly when its characters are the digits of `L`. -/
theorem hexTextParsesToItsBytes : Obligations.HexTextParsesToItsBytes := by
  have accepted : ∀ (text : List Char) (L : Block), hostAction [text] = .givenInput L ↔
      text.length = 16 ∧ List.Forall₂ sameDigit (blockText L) text := fun text L =>
    hostAction_eq_givenInput.trans (and_congr_right' parseInput_eq_some)
  exact ⟨fun L text h => (accepted text L).mpr ⟨h.length_eq.symm.trans (length_blockText L), h⟩, length_blockText,
    fun text L => (accepted text L).mp⟩

/-- Settles O1: the ten rows of the table by evaluation, and no row above 9. -/
theorem operationIndexTable : Obligations.OperationIndexTable :=
  ⟨rfl, decodeOp_eq_none_of_nine_lt⟩

/-- Settles O55: six words are the indices of their operations, two are reserved. -/
theorem tableWordsDecode : Obligations.TableWordsDecode := by
  have word {i : Instr} (h : IndexRoundTrip.Statement i) : decodeTableWord 8 (encodeOp i).toNat = some i := by
    obtain ⟨-, -, hword⟩ := h
    exact hword
  exact ⟨word IndexRoundTrip.build, word IndexRoundTrip.code1, word IndexRoundTrip.code32, word IndexRoundTrip.parity,
    word IndexRoundTrip.pack, word IndexRoundTrip.report, rfl, rfl⟩

end Sys2Proof.Proofs
end

section
/-! SUPPORT. Facts the statements about the Builder rest on: `unpack` byte by byte, its inverse, and a buffer written
over with the block it holds. -/

namespace Sys2Proof.Machine

/-- A register bit as a bit of its byte (40_builder.md R50). -/
theorem getLsbD_unpack_getElem (L : Block) {i m : Nat} (hi : i < 8) (hm : m < 8) :
    (unpack L).getLsbD (56 - 8 * i + m) = (L[i]).getLsbD (7 - m) := by
  have hbyte : 7 - (56 - 8 * i + m) / 8 = i := by omega
  have hbit : (56 - 8 * i + m) % 8 = m := by omega
  rw [getLsbD_unpack L _ (by omega), hbyte, hbit, byteBit_getElem L i _ hi]

/-- Within a byte the register and the buffer word count from opposite ends. -/
theorem getLsbD_unpack_eq_bufferWord_byte (L : Block) {q n : Nat} (hq : q < 8) (hn : n < 8) :
    (unpack L).getLsbD (8 * q + n) = (bufferWord L).getLsbD (8 * q + (7 - n)) := by
  have hbyte : (8 * q + n) / 8 = (8 * q + (7 - n)) / 8 := by omega
  have hbit : 7 - (8 * q + n) % 8 = (8 * q + (7 - n)) % 8 := by omega
  rw [getLsbD_unpack L _ (by omega), getLsbD_bufferWord L _ (by omega), hbyte, hbit]

/-- `pack` undoes `unpack` (40_builder.md R53). -/
theorem pack_unpack (L : Block) : pack (unpack L) = L := by
  refine block_ext fun i hi b hb => ?_
  have hbit : 7 - (7 - b) = b := by omega
  rw [byteBit_pack _ i b hi hb, getLsbD_unpack_getElem L hi (by omega), hbit, byteBit_getElem L i b hi]

theorem bijective_unpack : Function.Bijective unpack :=
  Function.bijective_iff_has_inverse.mpr ⟨pack, pack_unpack, unpack_pack⟩

/-- Writing back the block a buffer holds changes no byte. -/
theorem Memory.read_putBlock_of_block {m : List Host.Cell} {L : Block} (h : Memory.block m = some L) (a : Nat) :
    Memory.read (Memory.putBlock m L) a = Memory.read m a := by
  rw [Memory.read_putBlock]
  split
  · next ha => exact ((Memory.block_eq_some m L).mp h a ha).symm
  · rfl

end Sys2Proof.Machine
end

section
/-! The statements about the BitVector Builder (40_builder.md), settled. -/

namespace Sys2Proof.Proofs

open Sys2Proof.Machine Sys2Proof.Claims

/-- Settles O9: the eight bytes are the block BUILD reads, and its one write beside `PH` is `R`. -/
theorem buildExpandsBuffer : Obligations.BuildExpandsBuffer := by
  refine ⟨decodeOp_encodeOp .build, fun s L hread => ?_⟩
  have hblock : Memory.block s.buf = some L := (Memory.block_eq_some s.buf L).mpr hread
  exact ⟨_, exec_build_of_block s L hblock, rfl, fun i hi m hm => getLsbD_unpack_getElem L hi hm,
    fun _ => rfl, ⟨rfl, rfl⟩, toNat_nextPhase⟩

/-- Settles O23: each register bit traced to its byte and to `V`, and `pack` as the inverse on both sides. -/
theorem unpackMapsEveryBit : Obligations.UnpackMapsEveryBit :=
  ⟨fun L _ hi _ hm => getLsbD_unpack_getElem L hi hm, getLsbD_unpack,
    fun L _ hq _ hn => getLsbD_unpack_eq_bufferWord_byte L hq hn, bijective_unpack, pack_unpack⟩

/-- Settles O24: after BUILD, PACK writes back the block that BUILD read. -/
theorem unpackThenPackIsIdentity : Obligations.UnpackThenPackIsIdentity := by
  refine ⟨pack_unpack, unpack_pack, fun s L hblock => ?_⟩
  have hrun : execSeq [.build, .pack] s =
      .next ((s.withR (unpack L)).advance.withBuf (Memory.putBlock s.buf (pack (unpack L)))).advance := by
    rw [execSeq_cons_of_next (exec_build_of_block s L hblock), execSeq_cons_of_next (exec_pack _), execSeq_nil]
    simp
  rw [pack_unpack] at hrun
  exact ⟨_, hrun, Memory.read_putBlock_of_block hblock⟩

end Sys2Proof.Proofs
end

section
/-! SUPPORT. Facts the statements about the bit-position decoder rest on: the code positions as the powers of two, the
classes by the binary digits of an index, and the code positions a data position feeds. -/

namespace Sys2Proof.Machine

open Sys2Proof.Claims

/-! ### Classes -/

theorem codePositions_eq_map : codePositions = (List.range 6).map (2 ^ ·) := rfl

theorem mem_codePositions {i : Nat} : i ∈ codePositions ↔ ∃ e < 6, i = 2 ^ e := by
  simp [codePositions_eq_map, eq_comm]

theorem classOf_eq_data {k : Nat} (hk : k < 64) : classOf k = .data ↔ k ∈ dataPositions := by
  simp [dataPositions, hk]

/-- R55 over the binary form: the role of an index is the number of 1 bits in it. -/
theorem classOf_eq_popcount : ∀ k < 64, classOf k =
    if popcount (BitVec.ofNat 6 k) = 0 then .parity
    else if popcount (BitVec.ofNat 6 k) = 1 then .code else .data := by
  decide

theorem classOf_iff_popcount {k : Nat} (hk : k < 64) :
    (classOf k = .parity ↔ popcount (BitVec.ofNat 6 k) = 0) ∧
    (classOf k = .code ↔ popcount (BitVec.ofNat 6 k) = 1) ∧
    (classOf k = .data ↔ 2 ≤ popcount (BitVec.ofNat 6 k)) := by
  rw [classOf_eq_popcount k hk]
  split
  · next hzero => simp [hzero]
  · split
    · next hone => simp [hone]
    · next hzero hone =>
      have htwo : 2 ≤ popcount (BitVec.ofNat 6 k) := by omega
      simp [hzero, hone, htwo]

theorem two_le_popcount_of_mem_dataPositions {j : Nat} (hj : j ∈ dataPositions) :
    2 ≤ popcount (BitVec.ofNat 6 j) := by
  have hlt : j < 64 := (mem_dataPositions.mp hj).1
  obtain ⟨-, -, hdata⟩ := classOf_iff_popcount hlt
  exact hdata.mp ((classOf_eq_data hlt).mpr hj)

theorem popcount_le {n : Nat} (x : BitVec n) : popcount x ≤ n := by
  simpa [popcount] using List.countP_le_length (l := List.range n) (p := fun k => x.getLsbD k)

/-! ### Input sets -/

/-- The table of R57. -/
theorem map_inputs_codePositions : codePositions.map inputs =
    [inputSet1, inputSet2, inputSet4, inputSet8, inputSet16, inputSet32] := by
  decide

/-- A function of the input sets, tabulated over the code positions. -/
theorem map_codePositions_inputs {α : Type} (f : List Nat → α) : codePositions.map (fun i => f (inputs i)) =
    [f inputSet1, f inputSet2, f inputSet4, f inputSet8, f inputSet16, f inputSet32] := by
  rw [← Function.comp_def, ← List.map_map, map_inputs_codePositions]
  rfl

theorem mem_inputs_two_pow {e j : Nat} :
    j ∈ inputs (2 ^ e) ↔ j < 64 ∧ j.testBit e = true ∧ j ≠ 2 ^ e := by
  simp [inputs, mem_cover_two_pow, and_assoc]

/-- No code position feeds another, and neither does the parity position (R58 item 2). -/
theorem mem_dataPositions_of_mem_inputs {e j : Nat} (h : j ∈ inputs (2 ^ e)) : j ∈ dataPositions := by
  obtain ⟨hlt, hbit, hne⟩ := mem_inputs_two_pow.mp h
  refine mem_dataPositions.mpr ⟨hlt, ?_, fun hcode => ?_⟩
  · rintro rfl
    simp at hbit
  · obtain ⟨e', -, rfl⟩ := mem_codePositions.mp hcode
    rw [Nat.testBit_two_pow, decide_eq_true_eq] at hbit
    exact hne (by rw [hbit])

/-- A data position feeds the code bits of its binary digits (R58 item 3). -/
theorem mem_inputs_iff_testBit {e j : Nat} (he : e < 6) (hj : j ∈ dataPositions) :
    j ∈ inputs (2 ^ e) ↔ j.testBit e = true := by
  obtain ⟨hlt, -, hcode⟩ := mem_dataPositions.mp hj
  have hne : j ≠ 2 ^ e := fun h => hcode (mem_codePositions.mpr ⟨e, he, h⟩)
  simp [mem_inputs_two_pow, hlt, hne]

/-- The code bits a data position feeds, from the digits of its index as a 6-bit word. -/
theorem filter_codePositions_mem_inputs {j : Nat} (hj : j ∈ dataPositions) :
    codePositions.filter (fun i => decide (j ∈ inputs i)) =
      ((List.range 6).filter (fun e => (BitVec.ofNat 6 j).getLsbD e)).map (2 ^ ·) := by
  rw [codePositions_eq_map, List.filter_map]
  refine congrArg _ (List.filter_congr fun e he => ?_)
  have he6 : e < 6 := List.mem_range.mp he
  simp [mem_inputs_iff_testBit he6 hj, BitVec.getLsbD_ofNat, he6, -BitVec.getLsbD_eq_getElem]

theorem length_filter_mem_inputs {j : Nat} (hj : j ∈ dataPositions) :
    (codePositions.filter (fun i => decide (j ∈ inputs i))).length = popcount (BitVec.ofNat 6 j) := by
  rw [filter_codePositions_mem_inputs hj, List.length_map, popcount, List.countP_eq_length_filter]

/-- The sum of the terms a list keeps, with 0 for those it drops. -/
theorem sum_map_filter (p : Nat → Bool) (f : Nat → Nat) (l : List Nat) :
    ((l.filter p).map f).sum = (l.map (fun x => (p x).toNat * f x)).sum := by
  induction l with
  | nil => rfl
  | cons x xs ih => cases hp : p x <;> simp [hp, ih]

/-- The code bits a data position feeds spell its index in binary (R58 item 3). -/
theorem sum_filter_mem_inputs {j : Nat} (hj : j ∈ dataPositions) :
    (codePositions.filter (fun i => decide (j ∈ inputs i))).sum = j := by
  have hlt : j < 64 := (mem_dataPositions.mp hj).1
  rw [filter_codePositions_mem_inputs hj, sum_map_filter, ← toNat_eq_sum_bits, BitVec.toNat_ofNat,
    Nat.mod_eq_of_lt hlt]

end Sys2Proof.Machine
end

section
/-! The statements about the bit-position decoder (41_position_decoder.md), settled. -/

namespace Sys2Proof.Proofs

open Sys2Proof.Machine Sys2Proof.Claims

/-- Settles O29: the number of 1 bits of an index decides its class; the counts are by evaluation. -/
theorem classOfEveryIndex : Obligations.ClassOfEveryIndex := by
  exact ⟨fun _ _ => rfl, fun _ => classOf_iff_popcount, by decide, by decide, by decide⟩

/-- Settles O30: sizes and masks are read off the six listed sets. -/
theorem inputSetsInFull : Obligations.InputSetsInFull := by
  have hsets := map_inputs_codePositions
  simp only [codePositions, List.map_cons, List.map_nil, List.cons.injEq, and_true] at hsets
  obtain ⟨h1, h2, h4, h8, h16, h32⟩ := hsets
  refine ⟨h1, h2, h4, h8, h16, h32, fun e _ j hj => by simp [mem_inputs_two_pow, hj], ?_, ?_, ?_⟩
  · simp [codePositions, h1, h2, h4, h8, h16, h32, inputSet1, inputSet2, inputSet4, inputSet8, inputSet16, inputSet32]
  · rw [map_codePositions_inputs fun S => (S.map (fun k => 2 ^ k)).sum]
    decide
  · rw [map_codePositions_inputs fun S => (S.map (fun k => 2 ^ (k ^^^ 7))).sum]
    decide

/-- Settles O31: with a code position written as a power of two, each item is a fact about one binary digit. -/
theorem coverProperties : Obligations.CoverProperties := by
  refine ⟨fun i hi j hj => ?_, fun e _ j hj => by simp [mem_cover_two_pow, hj], fun i hi j hj => ?_, fun j hj => ?_,
    fun j hj => ?_⟩
  · obtain ⟨e, -, rfl⟩ := mem_codePositions.mp hi
    simp [Nat.two_pow_and, Nat.testBit_lt_two_pow hj]
  · obtain ⟨e, -, rfl⟩ := mem_codePositions.mp hi
    have hdata := mem_dataPositions_of_mem_inputs hj
    exact (classOf_eq_data (mem_dataPositions.mp hdata).1).mpr hdata
  · exact ⟨fun e he => mem_inputs_iff_testBit he hj, length_filter_mem_inputs hj,
      two_le_popcount_of_mem_dataPositions hj, popcount_le _, sum_filter_mem_inputs hj⟩
  · have hbounds : j ≠ 0 ∧ j < 64 := by
      obtain hdata | hcode := List.mem_append.mp hj
      · obtain ⟨hlt, hne, -⟩ := mem_dataPositions.mp hdata
        exact ⟨hne, hlt⟩
      · obtain ⟨e, he, rfl⟩ := mem_codePositions.mp hcode
        exact ⟨by simp, Nat.pow_lt_pow_right (by decide) he⟩
    rw [List.mem_range'_1]
    omega

end Sys2Proof.Proofs
end

section
/-! SUPPORT. Facts the statements about the parity generator rest on: the parity of a masked word, a codeword from its
data bits, the CODE operations in any order, and the 1 bits of a codeword. -/

namespace Sys2Proof.Machine

open Sys2Proof.Claims

/-! ### The parity of a masked word -/

theorem map_xor_seven_perm : ((List.range 64).map (· ^^^ 7)).Perm (List.range 64) := by decide

/-- The bytes of `V` are those of `RW` reversed, so both words hold the same number of 1 bits. -/
theorem popcount_bufferWord_pack (r : Word64) : popcount (bufferWord (pack r)) = popcount r := by
  rw [popcount, popcount, ← (map_xor_seven_perm.countP_eq fun k => r.getLsbD k), List.countP_map]
  refine List.countP_congr fun p hp => ?_
  rw [getLsbD_bufferWord_pack r (List.mem_range.mp hp), Function.comp_apply]

theorem bufferWord_pack_and (r m : Word64) :
    bufferWord (pack r) &&& bufferWord (pack m) = bufferWord (pack (r &&& m)) := by
  refine BitVec.eq_of_getLsbD_eq fun p hp => ?_
  simp only [BitVec.getLsbD_and, getLsbD_bufferWord_pack _ hp]

/-- A mask on `RW` and the mask of the same positions on `V` select the same bits. -/
theorem popcount_bufferWord_pack_and (r m : Word64) :
    popcount (bufferWord (pack r) &&& bufferWord (pack m)) = popcount (r &&& m) := by
  rw [bufferWord_pack_and, popcount_bufferWord_pack]

/-- The byte and the bit in it that register bit `k` lands at (30_encoding.md R37). -/
theorem byteBit_pack_position (r : Word64) {k : Nat} (hk : k < 64) :
    byteBit (pack r) (7 - k / 8) (7 - k % 8) = r.getLsbD k := by
  rw [← getLsbD_unpack _ k hk, unpack_pack]

/-- An operation that writes register bit `k` alone, with the XOR of the positions of a mask, meets the rule of that
mask. -/
theorem checkBitEffect_of_writes_bit {i : Instr} {k : Nat} {terms : List Nat} {rwMask vMask : Word64}
    {write : Word64 → Word64} (hk : k < 64)
    (hexec : ∀ s, exec i s = .next (s.withR (write s.r)).advance)
    (hwrite : ∀ r : Word64, ∀ j < 64, (write r).getLsbD j = if j = k then xorOver terms r else r.getLsbD j)
    (hterms : (List.range 64).filter (fun j => rwMask.getLsbD j) = terms)
    (hmasks : bufferWord (pack rwMask) = vMask) :
    checkBitEffect i (encodeOp i) k terms rwMask vMask (7 - k / 8) (7 - k % 8) := by
  refine ⟨decodeOp_encodeOp i, fun s => ⟨_, hexec s, ?_⟩⟩
  have hbit : (write s.r).getLsbD k = xorOver terms s.r := (hwrite s.r k hk).trans (if_pos rfl)
  have hparity : ((write s.r).getLsbD k).toNat = popcount (s.r &&& rwMask) % 2 := by
    rw [popcount_and_mod_two, hterms, hbit]
  refine ⟨hbit, hparity, ?_, byteBit_pack_position _ hk, fun j hj hne => (hwrite s.r j hj).trans (if_neg hne),
    fun _ => rfl, ⟨rfl, rfl⟩, toNat_nextPhase⟩
  rw [← hmasks, popcount_bufferWord_pack_and]
  exact hparity

/-- The rule of a CODE operation: its input set is the positions of its mask on `RW` (42_parity_generator.md R60 to
R65). -/
theorem checkBitEffect_of_setCodeBit {i : Instr} {k : Nat} {rwMask vMask : Word64} (hk : k < 64)
    (hexec : ∀ s, exec i s = .next (s.withR (setCodeBit k s.r)).advance)
    (hterms : (List.range 64).filter (fun j => rwMask.getLsbD j) = inputs k)
    (hmasks : bufferWord (pack rwMask) = vMask) :
    checkBitEffect i (encodeOp i) k (inputs k) rwMask vMask (7 - k / 8) (7 - k % 8) :=
  checkBitEffect_of_writes_bit hk hexec (getLsbD_setCodeBit k) hterms hmasks

theorem filter_range_ne_zero : (List.range 64).filter (fun j => j != 0) = List.range' 1 63 := by decide

/-! ### A codeword from its data bits -/

/-- The code positions and the data positions make up the positions that PARITY reads (R58 item 4). -/
theorem range'_perm_dataPositions_append : (List.range' 1 63).Perm (dataPositions ++ codePositions) := by decide

/-- An index is 0, a code position or a data position (30_encoding.md R35). -/
theorem eq_zero_or_two_pow_or_mem_dataPositions {k : Nat} (hk : k < 64) :
    k = 0 ∨ (∃ e < 6, k = 2 ^ e) ∨ k ∈ dataPositions := by
  rw [mem_dataPositions, mem_codePositions]
  tauto

theorem two_pow_mem_codePositions {e : Nat} (he : e < 6) : 2 ^ e ∈ codePositions :=
  mem_codePositions.mpr ⟨e, he, rfl⟩

theorem nodup_inputs (i : Nat) : (inputs i).Nodup := (nodup_cover i).filter _

theorem nodup_dataPositions : dataPositions.Nodup := List.nodup_range.filter _

/-- The input set of a code bit as R68 says it: the data positions with binary digit `e`. -/
theorem xorOver_inputs_two_pow {e : Nat} (he : e < 6) (r : Word64) :
    xorOver (inputs (2 ^ e)) r = xorOver (dataPositions.filter (fun j => j.testBit e)) r := by
  have hnodup := nodup_dataPositions.filter (fun j => j.testBit e)
  refine xorOver_perm ((List.perm_ext_iff_of_nodup (nodup_inputs _) hnodup).mpr fun j => ?_) r
  rw [List.mem_filter]
  constructor
  · intro hj
    have hdata := mem_dataPositions_of_mem_inputs hj
    exact ⟨hdata, (mem_inputs_iff_testBit he hdata).mp hj⟩
  · rintro ⟨hdata, hbit⟩
    exact (mem_inputs_iff_testBit he hdata).mpr hbit

theorem xorOver_congr_of_sameData {S : List Nat} (hS : ∀ j ∈ S, j ∈ dataPositions) {r r' : Word64}
    (h : sameData r r') : xorOver S r = xorOver S r' :=
  xorOver_congr S r r' fun j hj => h j (hS j hj)

theorem getLsbD_two_pow_of_codeword {w : Word64} (hw : codeword w) {e : Nat} (he : e < 6) :
    w.getLsbD (2 ^ e) = xorOver (inputs (2 ^ e)) w := by
  have hmem := two_pow_mem_codePositions he
  exact (xorOver_filter_ne_of_eq_false (nodup_cover _) (cover_of_mem_codePositions _ hmem).1 (hw.1 _ hmem)).symm

theorem getLsbD_zero_of_codeword {w : Word64} (hw : codeword w) :
    w.getLsbD 0 = (xorOver dataPositions w ^^ xorOver codePositions w) := by
  rw [← xorOver_append, ← xorOver_perm range'_perm_dataPositions_append, ← filter_range_ne_zero]
  exact (xorOver_filter_ne_of_eq_false List.nodup_range (by decide) hw.2).symm

/-- The data bits decide a codeword: its code bits are computed from them, and its parity from both. -/
theorem codeword_ext {a b : Word64} (ha : codeword a) (hb : codeword b) (h : sameData a b) : a = b := by
  have hcode : ∀ e < 6, a.getLsbD (2 ^ e) = b.getLsbD (2 ^ e) := fun e he => by
    rw [getLsbD_two_pow_of_codeword ha he, getLsbD_two_pow_of_codeword hb he,
      xorOver_congr_of_sameData (fun _ => mem_dataPositions_of_mem_inputs) h]
  have hcodes : xorOver codePositions a = xorOver codePositions b := xorOver_congr _ _ _ fun k hk => by
    obtain ⟨e, he, rfl⟩ := mem_codePositions.mp hk
    exact hcode e he
  refine BitVec.eq_of_getLsbD_eq fun k hk => ?_
  obtain rfl | ⟨e, he, rfl⟩ | hdata := eq_zero_or_two_pow_or_mem_dataPositions hk
  · rw [getLsbD_zero_of_codeword ha, getLsbD_zero_of_codeword hb, hcodes,
      xorOver_congr_of_sameData (fun _ => id) h]
  · exact hcode e he
  · exact h k hdata

theorem sameData_symm {a b : Word64} (h : sameData a b) : sameData b a := fun k hk => (h k hk).symm

/-- ENCODE answers the one codeword with the data bits it is given. -/
theorem eq_encodeReg {w r : Word64} (hw : codeword w) (h : sameData w r) : w = encodeReg r :=
  codeword_ext hw (codeword_encodeReg r) (sameData_trans h (sameData_symm (sameData_encodeReg r)))

theorem encodeReg_congr {r r' : Word64} (h : sameData r r') : encodeReg r = encodeReg r' :=
  eq_encodeReg (codeword_encodeReg r) (sameData_trans (sameData_encodeReg r) h)

theorem codeword_xor {a b : Word64} (ha : codeword a) (hb : codeword b) : codeword (a ^^^ b) := by
  refine ⟨fun i hi => ?_, ?_⟩
  · rw [codeEquation, xorOver_xor, ha.1 i hi, hb.1 i hi, Bool.xor_self]
  · rw [parityEquation, xorOver_xor, ha.2, hb.2, Bool.xor_self]

theorem sameData_xor {a a' b b' : Word64} (ha : sameData a a') (hb : sameData b b') :
    sameData (a ^^^ b) (a' ^^^ b') := fun k hk => by
  rw [BitVec.getLsbD_xor, BitVec.getLsbD_xor, ha k hk, hb k hk]

/-- ENCODE is linear over XOR (42_parity_generator.md R73). -/
theorem encodeReg_xor (a b : Word64) : encodeReg (a ^^^ b) = encodeReg a ^^^ encodeReg b :=
  (eq_encodeReg (codeword_xor (codeword_encodeReg a) (codeword_encodeReg b))
    (sameData_xor (sameData_encodeReg a) (sameData_encodeReg b))).symm

theorem encodeReg_zero : encodeReg 0 = 0 := by
  simpa using encodeReg_xor 0 0

/-! ### The bits that ENCODE computes -/

theorem getLsbD_encodeReg_of_data (r : Word64) {k : Nat} (hk : k ∈ dataPositions) :
    (encodeReg r).getLsbD k = r.getLsbD k :=
  sameData_encodeReg r k hk

theorem getLsbD_encodeReg_two_pow (r : Word64) {e : Nat} (he : e < 6) :
    (encodeReg r).getLsbD (2 ^ e) = xorOver (inputs (2 ^ e)) r := by
  rw [getLsbD_two_pow_of_codeword (codeword_encodeReg r) he,
    xorOver_congr_of_sameData (fun _ => mem_dataPositions_of_mem_inputs) (sameData_encodeReg r)]

theorem getLsbD_encodeReg_zero (r : Word64) :
    (encodeReg r).getLsbD 0 = (xorOver dataPositions r ^^ xorOver codePositions (encodeReg r)) := by
  rw [getLsbD_zero_of_codeword (codeword_encodeReg r),
    xorOver_congr_of_sameData (fun _ => id) (sameData_encodeReg r)]

theorem xorOver_filter_cons (p : Nat → Bool) (j : Nat) (S : List Nat) (r : Word64) :
    xorOver ((j :: S).filter p) r = ((p j && r.getLsbD j) ^^ xorOver (S.filter p) r) := by
  rw [List.filter_cons]
  cases p j <;> simp [xorOver_cons]

/-- A position that two reductions share cancels. -/
theorem xorOver_filter_xor (S : List Nat) (p q : Nat → Bool) (r : Word64) :
    (xorOver (S.filter p) r ^^ xorOver (S.filter q) r) = xorOver (S.filter (fun j => p j ^^ q j)) r := by
  induction S with
  | nil => rfl
  | cons j S ih =>
    simp only [xorOver_filter_cons, Bool.and_xor_distrib_right, ← ih, Bool.xor_assoc, Bool.xor_left_comm]

/-- The XOR of some code bits reads the data positions with an odd number of 1s among the digits they stand for. -/
theorem xorOver_map_two_pow_encodeReg (r : Word64) {E : List Nat} (hE : ∀ e ∈ E, e < 6) :
    xorOver (E.map (2 ^ ·)) (encodeReg r) =
      xorOver (dataPositions.filter (fun j => xorOver E (BitVec.ofNat 64 j))) r := by
  induction E with
  | nil => simp [xorOver_nil]
  | cons e E ih =>
    have he : e < 6 := hE e List.mem_cons_self
    have hdigit : ∀ j, (BitVec.ofNat 64 j).getLsbD e = j.testBit e := fun j => by
      rw [BitVec.getLsbD_ofNat, decide_eq_true (show e < 64 by omega), Bool.true_and]
    simp only [List.map_cons, xorOver_cons, hdigit]
    rw [getLsbD_encodeReg_two_pow r he, xorOver_inputs_two_pow he, ih fun k hk => hE k (List.mem_cons_of_mem e hk),
      xorOver_filter_xor]

theorem filter_digits_eq_evenPositions :
    dataPositions.filter (fun j => true ^^ xorOver (List.range 6) (BitVec.ofNat 64 j)) = evenPositions := by
  decide

/-- The parity bit as a function of the data bits alone (42_parity_generator.md R71): a data bit counts once by itself
and once for each code bit it feeds. -/
theorem getLsbD_encodeReg_zero_eq_evenPositions (r : Word64) :
    (encodeReg r).getLsbD 0 = xorOver evenPositions r := by
  calc (encodeReg r).getLsbD 0
      = (xorOver (dataPositions.filter (fun _ => true)) r ^^
          xorOver (dataPositions.filter (fun j => xorOver (List.range 6) (BitVec.ofNat 64 j))) r) := by
        rw [List.filter_true, ← xorOver_map_two_pow_encodeReg r fun e => List.mem_range.mp, ← codePositions_eq_map,
          getLsbD_encodeReg_zero]
    _ = xorOver evenPositions r := by rw [xorOver_filter_xor, filter_digits_eq_evenPositions]

theorem evenPositions_eq_filter :
    evenPositions = dataPositions.filter (fun j => popcount (BitVec.ofNat 6 j) % 2 = 0) := by
  decide

/-! ### A single data bit -/

theorem getLsbD_one_shiftLeft {j : Nat} (hj : j < 64) (k : Nat) : (1#64 <<< j).getLsbD k = decide (k = j) := by
  rw [show 1#64 <<< j = BitVec.twoPow 64 j from rfl, BitVec.getLsbD_twoPow, decide_eq_true hj, Bool.true_and,
    decide_eq_decide, eq_comm]

theorem xorOver_one_shiftLeft {j : Nat} (hj : j < 64) {S : List Nat} (hS : S.Nodup) :
    xorOver S (1#64 <<< j) = decide (j ∈ S) := by
  induction S with
  | nil => rfl
  | cons k S ih =>
    obtain ⟨hk, hS⟩ := List.nodup_cons.mp hS
    rw [xorOver_cons, getLsbD_one_shiftLeft hj, ih hS]
    by_cases h : k = j
    · subst h
      simp [hk]
    · simp [h, Ne.symm h]

section
variable {j : Nat} (hj : j ∈ dataPositions)
include hj

theorem getLsbD_encodeReg_single_data {k : Nat} (hk : k ∈ dataPositions) :
    (encodeReg (1#64 <<< j)).getLsbD k = decide (k = j) := by
  rw [getLsbD_encodeReg_of_data _ hk, getLsbD_one_shiftLeft (mem_dataPositions.mp hj).1]

theorem getLsbD_encodeReg_single_two_pow {e : Nat} (he : e < 6) :
    (encodeReg (1#64 <<< j)).getLsbD (2 ^ e) = decide (j ∈ inputs (2 ^ e)) := by
  rw [getLsbD_encodeReg_two_pow _ he, xorOver_one_shiftLeft (mem_dataPositions.mp hj).1 (nodup_inputs _)]

theorem getLsbD_encodeReg_single_zero :
    (encodeReg (1#64 <<< j)).getLsbD 0 = decide (popcount (BitVec.ofNat 6 j) % 2 = 0) := by
  rw [getLsbD_encodeReg_zero_eq_evenPositions, evenPositions_eq_filter,
    xorOver_one_shiftLeft (mem_dataPositions.mp hj).1 (nodup_dataPositions.filter _)]
  simp [hj]

end

/-- The 64 positions by class. -/
theorem popcount_eq_of_classes (w : Word64) : popcount w =
    (w.getLsbD 0).toNat + dataPositions.countP (fun k => w.getLsbD k) +
      codePositions.countP (fun k => w.getLsbD k) := by
  have hperm : (List.range 64).Perm (0 :: (dataPositions ++ codePositions)) :=
    range'_perm_dataPositions_append.cons 0
  have hbit : (if w.getLsbD 0 = true then 1 else 0) = (w.getLsbD 0).toNat := by cases w.getLsbD 0 <;> rfl
  rw [popcount, hperm.countP_eq, List.countP_cons, List.countP_append, hbit]
  omega

theorem countP_dataPositions_eq_self {j : Nat} (hj : j ∈ dataPositions) :
    dataPositions.countP (fun k => decide (k = j)) = 1 :=
  List.count_eq_one_of_mem nodup_dataPositions hj

/-- A single data bit sets itself, the code bits it feeds, and the parity bit if that makes the number even. -/
theorem popcount_encodeReg_single {j : Nat} (hj : j ∈ dataPositions) : popcount (encodeReg (1#64 <<< j)) =
    2 * ((popcount (BitVec.ofNat 6 j) + 2) / 2) := by
  have hdata : dataPositions.countP (fun k => (encodeReg (1#64 <<< j)).getLsbD k) = 1 := by
    refine (List.countP_congr fun k hk => ?_).trans (countP_dataPositions_eq_self hj)
    rw [getLsbD_encodeReg_single_data hj hk]
  have hcode : codePositions.countP (fun k => (encodeReg (1#64 <<< j)).getLsbD k) =
      popcount (BitVec.ofNat 6 j) := by
    rw [← length_filter_mem_inputs hj, ← List.countP_eq_length_filter]
    refine List.countP_congr fun k hk => ?_
    obtain ⟨e, he, rfl⟩ := mem_codePositions.mp hk
    rw [getLsbD_encodeReg_single_two_pow hj he]
  rw [popcount_eq_of_classes, hdata, hcode, getLsbD_encodeReg_single_zero hj]
  by_cases heven : popcount (BitVec.ofNat 6 j) % 2 = 0
  · rw [decide_eq_true heven, Bool.toNat_true]
    omega
  · rw [decide_eq_false heven, Bool.toNat_false]
    omega

/-! ### The CODE operations in any order -/

/-- No CODE operation reads a bit that one of them writes (42_parity_generator.md R70). -/
theorem xorOver_inputs_setCodeBit {i k : Nat} (hi : i ∈ codePositions) (hk : k ∈ codePositions) (r : Word64) :
    xorOver (inputs i) (setCodeBit k r) = xorOver (inputs i) r := by
  obtain ⟨e, -, rfl⟩ := mem_codePositions.mp hi
  exact xorOver_congr_of_sameData (fun _ => mem_dataPositions_of_mem_inputs) (sameData_setCodeBit hk r)

theorem setCodeBit_comm {i k : Nat} (hi : i ∈ codePositions) (hk : k ∈ codePositions) (r : Word64) :
    setCodeBit i (setCodeBit k r) = setCodeBit k (setCodeBit i r) := by
  refine BitVec.eq_of_getLsbD_eq fun j hj => ?_
  simp only [getLsbD_setCodeBit _ _ j hj, xorOver_inputs_setCodeBit hi hk, xorOver_inputs_setCodeBit hk hi]
  by_cases hji : j = i
  · subst hji
    by_cases hjk : j = k <;> simp [hjk]
  · simp [hji]

/-- Some CODE operations at once: each writes its bit from the register as it was. -/
theorem getLsbD_foldl_setCodeBit {S : List Nat} {j : Nat} (hj : j < 64) : ∀ {r : Word64},
    (∀ i ∈ S, i ∈ codePositions) → (S.foldl (fun w k => setCodeBit k w) r).getLsbD j =
      if j ∈ S then xorOver (inputs j) r else r.getLsbD j := by
  induction S with
  | nil => exact fun _ => (if_neg List.not_mem_nil).symm
  | cons k S ih =>
    intro r hS
    have hk : k ∈ codePositions := hS k List.mem_cons_self
    have hS' : ∀ i ∈ S, i ∈ codePositions := fun i hi => hS i (List.mem_cons_of_mem k hi)
    rw [List.foldl_cons, ih hS']
    by_cases hmem : j ∈ S
    · rw [if_pos hmem, if_pos (List.mem_cons_of_mem k hmem), xorOver_inputs_setCodeBit (hS' j hmem) hk]
    · rw [if_neg hmem, getLsbD_setCodeBit k r j hj]
      simp only [List.mem_cons, hmem, or_false]
      split
      · next heq => rw [heq]
      · rfl

theorem codePositions_bounds : ∀ k ∈ codePositions, k < 64 ∧ k ≠ 0 := by decide

theorem exec_of_mem_codeOps {i : Instr} (hi : i ∈ codeOps) : ∃ k ∈ codePositions, ∀ s,
    exec i s = .next (s.withR (setCodeBit k s.r)).advance := by
  cases i with
  | code1 => exact ⟨1, by decide, exec_code1⟩
  | code2 => exact ⟨2, by decide, exec_code2⟩
  | code4 => exact ⟨4, by decide, exec_code4⟩
  | code8 => exact ⟨8, by decide, exec_code8⟩
  | code16 => exact ⟨16, by decide, exec_code16⟩
  | code32 => exact ⟨32, by decide, exec_code32⟩
  | build | parity | pack | report => exact absurd hi (by decide)

theorem execSeq_append (ops ops' : List Instr) (s : State) :
    execSeq (ops ++ ops') s = andThen (execSeq ops s) (execSeq ops') := by
  induction ops generalizing s with
  | nil => rfl
  | cons i ops ih =>
    rw [List.cons_append, execSeq_cons, execSeq_cons]
    cases exec i s with
    | next t => exact ih t
    | fault e => rfl
    | refused e => rfl

theorem execSeq_swap_codeOps {i j : Instr} (hi : i ∈ codeOps) (hj : j ∈ codeOps) (ops : List Instr) (s : State) :
    execSeq (i :: j :: ops) s = execSeq (j :: i :: ops) s := by
  obtain ⟨p, hp, hexeci⟩ := exec_of_mem_codeOps hi
  obtain ⟨q, hq, hexecj⟩ := exec_of_mem_codeOps hj
  rw [execSeq_cons_of_next (hexeci s), execSeq_cons_of_next (hexecj _), execSeq_cons_of_next (hexecj s),
    execSeq_cons_of_next (hexeci _)]
  simp only [State.advance_r, State.withR_r, State.advance_withR, State.withR_withR, setCodeBit_comm hp hq]

/-- CODE operations may run in any order (42_parity_generator.md R70). -/
theorem execSeq_perm_codeOps {ops ops' : List Instr} (h : ops.Perm ops') :
    (∀ i ∈ ops, i ∈ codeOps) → ∀ s, execSeq ops s = execSeq ops' s := by
  induction h with
  | nil => exact fun _ _ => rfl
  | cons i _ ih =>
    intro hops s
    rw [execSeq_cons, execSeq_cons, funext (ih fun j hj => hops j (List.mem_cons_of_mem i hj))]
  | swap i j ops =>
    exact fun hops s => execSeq_swap_codeOps (hops j (by simp)) (hops i (by simp)) ops s
  | trans h1 _ ih1 ih2 =>
    exact fun hops s => (ih1 hops s).trans (ih2 (fun i hi => hops i (h1.mem_iff.mpr hi)) s)

/-- A CODE operation held back until after PARITY: the register it leaves. -/
theorem execSeq_erase_parity {i : Instr} (hi : i ∈ codeOps) : ∃ k ∈ codePositions, ∀ s, ∃ t,
    execSeq (codeOps.erase i ++ [.parity, i]) s = .next t ∧
      t.r = setCodeBit k (setParityBit ((codePositions.erase k).foldl (fun w k => setCodeBit k w) s.r)) := by
  cases i with
  | code1 => exact ⟨1, by decide, fun s => ⟨_, rfl, rfl⟩⟩
  | code2 => exact ⟨2, by decide, fun s => ⟨_, rfl, rfl⟩⟩
  | code4 => exact ⟨4, by decide, fun s => ⟨_, rfl, rfl⟩⟩
  | code8 => exact ⟨8, by decide, fun s => ⟨_, rfl, rfl⟩⟩
  | code16 => exact ⟨16, by decide, fun s => ⟨_, rfl, rfl⟩⟩
  | code32 => exact ⟨32, by decide, fun s => ⟨_, rfl, rfl⟩⟩
  | build | parity | pack | report => exact absurd hi (by decide)

/-- Registers that differ at one position at most are equal there if both have even parity. -/
theorem getLsbD_eq_of_parityEquation {a b : Word64} (ha : parityEquation a) (hb : parityEquation b) {k : Nat}
    (hk : k < 64) (h : ∀ j < 64, j ≠ k → a.getLsbD j = b.getLsbD j) : a.getLsbD k = b.getLsbD k := by
  have hmem : k ∈ List.range 64 := List.mem_range.mpr hk
  rw [← xorOver_filter_ne_of_eq_false List.nodup_range hmem ha,
    ← xorOver_filter_ne_of_eq_false List.nodup_range hmem hb]
  refine xorOver_congr _ a b fun j hj => ?_
  obtain ⟨hlt, hne⟩ := List.mem_filter.mp hj
  exact h j (List.mem_range.mp hlt) (by simpa using hne)

/-- A CODE operation that changes its bit after PARITY leaves an odd parity, which ENCODE never does. -/
theorem setCodeBit_setParityBit_ne_encodeReg {k : Nat} (hk : k ∈ codePositions) {w r : Word64}
    (h : w.getLsbD k ≠ (encodeReg r).getLsbD k) : setCodeBit k (setParityBit w) ≠ encodeReg r := by
  intro heq
  obtain ⟨hlt, hzero⟩ : k < 64 ∧ k ≠ 0 := codePositions_bounds k hk
  refine h ((getLsbD_setParityBit w k hlt).trans (if_neg hzero) ▸ ?_)
  refine getLsbD_eq_of_parityEquation (parityEquation_setParityBit w) (codeword_encodeReg r).2 hlt fun j hj hne => ?_
  rw [← heq, getLsbD_setCodeBit k _ j hj, if_neg hne]

/-- With data bit 63 alone all six code bits are computed as 1, and one computed after PARITY is missing from the
parity. -/
theorem execSeq_erase_parity_ne {i : Instr} (hi : i ∈ codeOps) {s : State} (hs : s.r = 1#64 <<< 63) :
    execSeq (codeOps.erase i ++ [.parity, i]) s ≠ execSeq encodeOps s := by
  obtain ⟨k, hk, hrun⟩ := execSeq_erase_parity hi
  obtain ⟨t, ht, hr⟩ := hrun s
  have hkept : ((codePositions.erase k).foldl (fun w k => setCodeBit k w) (1#64 <<< 63)).getLsbD k = false := by
    have hnot : ∀ k ∈ codePositions, k ∉ codePositions.erase k ∧ k ≠ 63 := by decide
    rw [getLsbD_foldl_setCodeBit (codePositions_bounds k hk).1 fun _ => List.mem_of_mem_erase,
      if_neg (hnot k hk).1, getLsbD_one_shiftLeft (by decide), decide_eq_false (hnot k hk).2]
  have hset : (encodeReg (1#64 <<< 63)).getLsbD k = true := by
    have hfeeds : ∀ k ∈ codePositions, 63 ∈ inputs k := by decide
    obtain ⟨e, he, rfl⟩ := mem_codePositions.mp hk
    rw [getLsbD_encodeReg_single_two_pow (by decide) he, decide_eq_true (hfeeds _ hk)]
  intro heq
  rw [ht, execSeq_encodeOps, Host.Outcome.next.injEq] at heq
  have hreg : t.r = encodeReg s.r := congrArg State.r heq
  rw [hr, hs] at hreg
  exact setCodeBit_setParityBit_ne_encodeReg hk (by rw [hkept, hset]; decide) hreg

/-! ### The 1 bits of a codeword -/

/-- The positions of the 1 bits of a register. -/
def ones (w : Word64) : List Nat := (List.range 64).filter (fun k => w.getLsbD k)

theorem mem_ones {w : Word64} {k : Nat} : k ∈ ones w ↔ k < 64 ∧ w.getLsbD k = true := by
  simp only [ones, List.mem_filter, List.mem_range]

theorem nodup_ones (w : Word64) : (ones w).Nodup := List.nodup_range.filter _

theorem length_ones (w : Word64) : (ones w).length = popcount w :=
  List.countP_eq_length_filter.symm

/-- A reduction over part of the register is the parity of the 1 bits in that part. -/
theorem countP_ones_mod_two (w : Word64) (p : Nat → Bool) :
    (ones w).countP p % 2 = (xorOver ((List.range 64).filter p) w).toNat := by
  rw [← countP_mod_two, ones, List.countP_filter, List.countP_filter]
  simp only [Bool.and_comm]

theorem cover_two_pow_eq_filter (e : Nat) : cover (2 ^ e) = (List.range 64).filter (fun j => j.testBit e) := by
  rw [cover]
  refine List.filter_congr fun j hj => ?_
  have hmem := mem_cover_two_pow (e := e) (j := j)
  rw [cover, List.mem_filter, and_iff_right hj, and_iff_right (List.mem_range.mp hj)] at hmem
  exact Bool.eq_iff_iff.mpr hmem

/-- Every binary digit is 1 in an even number of the indices at which a codeword has a 1. -/
theorem countP_ones_testBit_of_codeword {w : Word64} (hw : codeword w) {e : Nat} (he : e < 6) :
    (ones w).countP (fun j => j.testBit e) % 2 = 0 := by
  rw [countP_ones_mod_two, ← cover_two_pow_eq_filter, hw.1 _ (two_pow_mem_codePositions he), Bool.toNat_false]

theorem popcount_mod_two_of_codeword {w : Word64} (hw : codeword w) : popcount w % 2 = 0 := by
  rw [popcount, countP_mod_two, hw.2, Bool.toNat_false]

/-- No two indices below 64 have the same digits, so no codeword has just two 1 bits. -/
theorem popcount_ne_two_of_codeword {w : Word64} (hw : codeword w) : popcount w ≠ 2 := by
  intro htwo
  obtain ⟨j, k, hjk⟩ := List.length_eq_two.mp ((length_ones w).trans htwo)
  have hlt : ∀ i ∈ [j, k], i < 64 := fun i hi => (mem_ones.mp (hjk ▸ hi)).1
  have hltj : j < 64 := hlt j (by simp)
  have hltk : k < 64 := hlt k (by simp)
  have hdigits : ∀ e, j.testBit e = k.testBit e := by
    intro e
    by_cases he : e < 6
    · have heven := countP_ones_testBit_of_codeword hw he
      rw [hjk] at heven
      revert heven
      cases hj : j.testBit e <;> cases hk : k.testBit e <;> simp [hj, hk]
    · have hpow : 64 ≤ 2 ^ e := Nat.pow_le_pow_right (n := 2) (by decide) (show 6 ≤ e by omega)
      rw [Nat.testBit_lt_two_pow (by omega), Nat.testBit_lt_two_pow (by omega)]
  have hne : j ≠ k := by simpa [hjk] using nodup_ones w
  exact hne (Nat.eq_of_testBit_eq hdigits)

/-- The code has minimum distance 4 (42_parity_generator.md R73). -/
theorem four_le_popcount_of_codeword {w : Word64} (hw : codeword w) {k : Nat} (hk : k < 64)
    (hbit : w.getLsbD k = true) : 4 ≤ popcount w := by
  have hpos : 0 < popcount w := length_ones w ▸ List.length_pos_of_mem (mem_ones.mpr ⟨hk, hbit⟩)
  have heven := popcount_mod_two_of_codeword hw
  have htwo := popcount_ne_two_of_codeword hw
  omega

/-! ### Masked inputs and XOR trees -/

theorem byteBit_dataMask : ∀ k ∈ dataPositions, byteBit dataMask (7 - k / 8) (7 - k % 8) = true := by decide

/-- Inputs that agree under the data masks unpack to registers with the same data bits (43_packer.md R80). -/
theorem sameData_unpack_of_dataMask {L M : Block}
    (h : ∀ (i : Nat) (hi : i < 8), L[i] &&& dataMask[i] = M[i] &&& dataMask[i]) :
    sameData (unpack L) (unpack M) := by
  intro k hk
  have hlt : k < 64 := (mem_dataPositions.mp hk).1
  have hi : 7 - k / 8 < 8 := by omega
  have hmask := byteBit_dataMask k hk
  have hbit := congrArg (fun x => BitVec.getLsbD x (7 - k % 8)) (h (7 - k / 8) hi)
  simp only [BitVec.getLsbD_and, ← byteBit_getElem _ _ _ hi, hmask, Bool.and_true] at hbit
  rwa [getLsbD_unpack L k hlt, getLsbD_unpack M k hlt]

theorem eval_eq_xorOver_leaves (r : Word64) (tree : XorTree) : tree.eval r = xorOver tree.leaves r := by
  induction tree with
  | leaf j => rw [XorTree.eval, XorTree.leaves, xorOver_cons, xorOver_nil, Bool.xor_false]
  | node a b iha ihb => rw [XorTree.eval, XorTree.leaves, xorOver_append, iha, ihb]

end Sys2Proof.Machine
end

section
/-! The statements about the parity generator (42_parity_generator.md), settled. -/

namespace Sys2Proof.Proofs

open Sys2Proof.Machine Sys2Proof.Claims

/-- Settles O11: the rule of a CODE operation with the input set and the masks of R60. -/
theorem code1WritesItsBit : Obligations.Code1WritesItsBit :=
  checkBitEffect_of_setCodeBit (by decide) exec_code1 (by decide) (by decide)

/-- Settles O12: the rule of a CODE operation with the input set and the masks of R61. -/
theorem code2WritesItsBit : Obligations.Code2WritesItsBit :=
  checkBitEffect_of_setCodeBit (by decide) exec_code2 (by decide) (by decide)

/-- Settles O13: the rule of a CODE operation with the input set and the masks of R62. -/
theorem code4WritesItsBit : Obligations.Code4WritesItsBit :=
  checkBitEffect_of_setCodeBit (by decide) exec_code4 (by decide) (by decide)

/-- Settles O14: the rule of a CODE operation with the input set and the masks of R63. -/
theorem code8WritesItsBit : Obligations.Code8WritesItsBit :=
  checkBitEffect_of_setCodeBit (by decide) exec_code8 (by decide) (by decide)

/-- Settles O15: the rule of a CODE operation with the input set and the masks of R64. -/
theorem code16WritesItsBit : Obligations.Code16WritesItsBit :=
  checkBitEffect_of_setCodeBit (by decide) exec_code16 (by decide) (by decide)

/-- Settles O16: the rule of a CODE operation with the input set and the masks of R65. -/
theorem code32WritesItsBit : Obligations.Code32WritesItsBit :=
  checkBitEffect_of_setCodeBit (by decide) exec_code32 (by decide) (by decide)

/-- Settles O17: PARITY writes bit 0 alone, from the other 63. -/
theorem parityWritesBitZero : Obligations.ParityWritesBitZero :=
  checkBitEffect_of_writes_bit (by decide) exec_parity
    (fun r j hj => filter_range_ne_zero ▸ getLsbD_setParityBit r j hj) (by decide) (by decide)

/-- Settles O32: the bits of the codeword that ENCODE leaves, and seven advances of `PH`. -/
theorem encodeComputesCheckBits : Obligations.EncodeComputesCheckBits := by
  intro s
  refine ⟨_, execSeq_encodeOps s, rfl, fun j hj => getLsbD_encodeReg_of_data s.r hj, fun e he => ?_, ?_,
    fun _ => rfl, ⟨rfl, rfl⟩, fun hph => ?_⟩
  · exact (getLsbD_encodeReg_two_pow s.r he).trans (xorOver_inputs_two_pow he s.r)
  · refine (getLsbD_encodeReg_zero s.r).trans ?_
    simp only [codePositions, xorOver_cons, xorOver_nil, Bool.xor_false, Bool.xor_assoc]
    rfl
  · have h1 : s.ph = 1 := BitVec.eq_of_toNat_eq hph
    simp only [State.advance_ph, State.withR_ph, h1]
    rfl

/-- Settles O33: a codeword is decided by its data bits, and the data masks keep the data bits. -/
theorem checkBitsOfInputAreIgnored : Obligations.CheckBitsOfInputAreIgnored := by
  refine ⟨fun r r' => encodeReg_congr, fun L M h => ?_⟩
  rw [drvgen, drvgen, drvgenBytes, drvgenBytes, encodeReg_congr (sameData_unpack_of_dataMask h)]

/-- Settles O34: CODE operations commute, each writes its bit from the old register, and with data bit 63 alone in
the register none may follow PARITY. -/
theorem codeOrderIsFree : Obligations.CodeOrderIsFree := by
  refine ⟨fun ops s h => ?_, fun r => ?_, fun i hi => ⟨State.reset.withR (1#64 <<< 63), ?_⟩⟩
  · rw [encodeOps, execSeq_append, execSeq_append, execSeq_perm_codeOps h fun i => h.mem_iff.mp]
  · rw [encodeReg_eq_foldl]
    refine congrArg setParityBit (BitVec.eq_of_getLsbD_eq fun k hk => ?_)
    rw [getLsbD_foldl_setCodeBit hk fun i => id, getLsbD_ofBits, decide_eq_true hk, Bool.true_and]
  · exact execSeq_erase_parity_ne hi rfl

/-- Settles O35: the shared positions cancel, and both masks select the positions that remain. -/
theorem parityFromDataBitsAlone : Obligations.ParityFromDataBitsAlone := by
  refine ⟨fun r => ?_, evenPositions_eq_filter⟩
  have hpositions : (List.range 64).filter (fun k => (0x9669699669969668 : Word64).getLsbD k) = evenPositions := by
    decide
  have hmasks : bufferWord (pack 0x9669699669969668) = 0x6996966996696916 := by decide
  have hbit := getLsbD_encodeReg_zero_eq_evenPositions r
  have hparity : ((encodeReg r).getLsbD 0).toNat = popcount (r &&& 0x9669699669969668) % 2 := by
    rw [popcount_and_mod_two, hpositions, hbit]
  rw [← hmasks, popcount_bufferWord_pack_and]
  exact ⟨hbit, hparity, hparity⟩

/-- Settles O36: ENCODE answers the codeword of the data bits. -/
theorem encodedRegisterIsCodeword : Obligations.EncodedRegisterIsCodeword := by
  intro r
  obtain ⟨hcode, hparity⟩ := codeword_encodeReg r
  exact ⟨hparity, hcode, encodeReg_of_codeword ⟨hcode, hparity⟩, fun r' h => (encodeReg_congr h).symm⟩

/-- Settles O38: linearity, and the bits of a single-bit result by the class of their index. -/
theorem encodeIsLinear : Obligations.EncodeIsLinear := by
  refine ⟨encodeReg_xor, encodeReg_zero, fun j hj => ⟨fun k hk => ?_, popcount_encodeReg_single hj, ?_⟩⟩
  · obtain ⟨-, hne, hcode⟩ := mem_dataPositions.mp hj
    obtain rfl | ⟨e, he, rfl⟩ | hdata := eq_zero_or_two_pow_or_mem_dataPositions hk
    · rw [getLsbD_encodeReg_single_zero hj]
      have hpow : ∀ e, 0 ≠ 2 ^ e := fun e => (Nat.two_pow_pos e).ne
      simp [Ne.symm hne, hpow]
    · have hself : 2 ^ e ≠ j := fun h => hcode (h ▸ two_pow_mem_codePositions he)
      simp [getLsbD_encodeReg_single_two_pow hj he, mem_inputs_iff_testBit he hj, hself, he]
    · obtain ⟨-, hzero, hnot⟩ := mem_dataPositions.mp hdata
      have hpow : ∀ e < 6, k ≠ 2 ^ e := fun e he h => hnot (h ▸ two_pow_mem_codePositions he)
      simp +contextual [getLsbD_encodeReg_single_data hj hdata, hzero, hpow]
  · have htwo := two_le_popcount_of_mem_dataPositions hj
    rw [popcount_encodeReg_single hj]
    omega

/-- Settles O39: a tree reduces its leaves, and the order of a reduction is free. -/
theorem xorTreeShapeIsFree : Obligations.XorTreeShapeIsFree := by
  intro r tree
  rw [eval_eq_xorOver_leaves]
  refine ⟨fun i hi h => ?_, fun h => ?_, fun h => ?_⟩
  · have hlt : i < 64 := mem_cover_lt i i (cover_of_mem_codePositions i hi).1
    rw [xorOver_perm h, getLsbD_setCodeBit i r i hlt, if_pos rfl]
  · rw [xorOver_perm h, getLsbD_setParityBit r 0 (by decide), if_pos rfl, filter_range_ne_zero]
  · rw [xorOver_perm h, getLsbD_encodeReg_zero_eq_evenPositions]

/-- Settles O40: the XOR of two encodings is a codeword with a 1 at a data position where the registers differ. -/
theorem encodedWordsDifferInFourBits : Obligations.EncodedWordsDifferInFourBits := by
  intro r r' hdiffer
  rw [sameData] at hdiffer
  push Not at hdiffer
  obtain ⟨k, hk, hne⟩ := hdiffer
  refine four_le_popcount_of_codeword (codeword_xor (codeword_encodeReg r) (codeword_encodeReg r'))
    (mem_dataPositions.mp hk).1 ?_
  rw [BitVec.getLsbD_xor, getLsbD_encodeReg_of_data r hk, getLsbD_encodeReg_of_data r' hk]
  exact bne_iff_ne.mpr hne

end Sys2Proof.Proofs
end

section
/-! SUPPORT. Facts the statements about the packer and the whole invocation rest on: a byte as the sum of its bits, the
fields as numbers, the runs from the start state, the closed form on the buffer word, and the outputs counted by their
data bits. -/

namespace Sys2Proof.Machine

open Sys2Proof.Claims

/-! ### Packed bytes and fields -/

/-- A packed byte bit by bit (43_packer.md R75). -/
theorem getLsbD_getElem_pack (r : Word64) {i m : Nat} (hi : i < 8) (hm : m < 8) :
    ((pack r)[i]).getLsbD (7 - m) = r.getLsbD (56 - 8 * i + m) := by
  have hbit : 7 - (7 - m) = m := by omega
  rw [← byteBit_getElem _ i _ hi, byteBit_pack r i _ hi (by omega), hbit]

theorem map_seven_sub_perm : ((List.range 8).map (7 - ·)).Perm (List.range 8) := by decide

/-- A byte is the sum of its bits from the top. -/
theorem toNat_byte_eq_sum_from_top (x : Byte) :
    x.toNat = ((List.range 8).map (fun m => (x.getLsbD (7 - m)).toNat * 2 ^ (7 - m))).sum := by
  rw [toNat_eq_sum_bits, ← (map_seven_sub_perm.map _).sum_eq, List.map_map]
  rfl

/-- A packed byte as a number (43_packer.md R75). -/
theorem toNat_getElem_pack (r : Word64) {i : Nat} (hi : i < 8) : ((pack r)[i]).toNat =
    ((List.range 8).map (fun m => (r.getLsbD (56 - 8 * i + m)).toNat * 2 ^ (7 - m))).sum := by
  rw [toNat_byte_eq_sum_from_top]
  refine congrArg List.sum (List.map_congr_left fun m hm => ?_)
  rw [getLsbD_getElem_pack r hi (List.mem_range.mp hm)]

/-- Four bytes as a number, the first the most significant (20_memory.md R23). -/
theorem toNat_bigEndian32 (b0 b1 b2 b3 : Byte) : (bigEndian32 b0 b1 b2 b3).toNat =
    b0.toNat * 2 ^ 24 + b1.toNat * 2 ^ 16 + b2.toNat * 2 ^ 8 + b3.toNat := by
  simp only [bigEndian32, toNat_append_byte]
  ring

/-- The two fields side by side are the buffer word (43_packer.md R77). -/
theorem bufferWord_eq_append_fields (L : Block) : bufferWord L = field1 L ++ field0 L := by
  rw [field1_eq_extractLsb', field0_eq_extractLsb',
    BitVec.extractLsb'_append_extractLsb'_eq_extractLsb' (show 32 = 0 + 32 from rfl)]
  exact BitVec.extractLsb'_eq_self.symm

/-! ### The runs from the start state -/

section
variable (L : Block)

/-- Steps of an invocation lead along its states. -/
theorem run_invocationState (n : Nat) : ∀ {p : Nat}, p + n ≤ 10 →
    Host.Core.run core n (invocationState L p) = .next (invocationState L (p + n)) := by
  induction n with
  | zero => exact fun _ => rfl
  | succ n ih =>
    intro p hp
    rw [run_succ_of_next (step_invocationState L (by omega)) n, ih (by omega), Nat.add_right_comm, Nat.add_assoc]

/-- Operations in the order of their indices lead along the states of an invocation. -/
theorem execSeq_invocationState {ops : List Instr} : ∀ {p : Nat}, p + ops.length ≤ 10 →
    encodeProgram ops = (List.range' p ops.length).map (BitVec.ofNat 4) →
    execSeq ops (invocationState L p) = .next (invocationState L (p + ops.length)) := by
  induction ops with
  | nil => exact fun _ _ => rfl
  | cons i ops ih =>
    intro p hp hops
    rw [List.length_cons] at hp ⊢
    obtain ⟨hi, hrest⟩ := List.cons.inj hops
    have hexec : exec i (invocationState L p) = .next (invocationState L (p + 1)) := by
      rw [← step_invocationState_of_decodeOp L (decodeOp_eq_some.mpr hi.symm), step_invocationState L (by omega)]
    rw [execSeq_cons_of_next hexec, ih (by omega) hrest, Nat.add_right_comm, Nat.add_assoc]

theorem result_invocationState_ten : (invocationState L 10).result = some (drvgen L) := by
  have hblock : Memory.block (invocationState L 10).buf = some (drvgenBytes L) := block_invocationState L
  have hph : (invocationState L 10).ph = 10 := rfl
  rw [State.result, if_pos hph, hblock]
  rfl

end

/-! ### The data bits of the output -/

/-- ENCODE leaves the data bits of each byte as they are (43_packer.md R80). -/
theorem getLsbD_getElem_drvgenBytes (L : Block) {i m : Nat} (hi : i < 8) (hm : m < 8)
    (hdata : 56 - 8 * i + m ∈ dataPositions) :
    ((drvgenBytes L)[i]).getLsbD (7 - m) = (L[i]).getLsbD (7 - m) := by
  rw [drvgenBytes, getLsbD_getElem_pack _ hi hm, getLsbD_encodeReg_of_data _ hdata, getLsbD_unpack_getElem L hi hm]

/-! ### The closed form on the buffer word -/

/-- The parity of `V` under a mask, as a reduction over the positions the mask selects in the register. -/
theorem par_bufferWord_pack_and (r : Word64) {rwMask vMask : Word64} {S : List Nat}
    (hmasks : bufferWord (pack rwMask) = vMask)
    (hterms : (List.range 64).filter (fun j => rwMask.getLsbD j) = S) :
    par (bufferWord (pack r) &&& vMask) = xorOver S r := by
  rw [par, ← hmasks, popcount_bufferWord_pack_and, popcount_and_mod_two, hterms]
  cases xorOver S r <;> rfl

theorem getLsbD_bitAt (v : Bool) {p : Nat} (hp : p < 64) (k : Nat) :
    (bitAt v p).getLsbD k = (v && decide (k = p)) := by
  cases v
  · simp [bitAt]
  · rw [bitAt, if_pos rfl, getLsbD_one_shiftLeft hp, Bool.true_and]

/-- The rule of a CODE operation gives the parity of `V` that R81 takes for its bit (42_parity_generator.md R60 to
R65). -/
theorem par_eq_getLsbD_encodeReg {i : Instr} {op : OpIndex} {e byte bit : Nat} {rwMask vMask : Word64} (he : e < 6)
    (h : checkBitEffect i op (2 ^ e) (inputs (2 ^ e)) rwMask vMask byte bit) (r : Word64) :
    par (bufferWord (pack r) &&& vMask) = (encodeReg r).getLsbD (2 ^ e) := by
  obtain ⟨-, hrun⟩ := h
  obtain ⟨t, -, hbit, -, hparity, -⟩ := hrun (State.reset.withR r)
  rw [getLsbD_encodeReg_two_pow r he, ← State.withR_r State.reset r, ← hbit, par, ← hparity]
  cases t.r.getLsbD (2 ^ e) <;> rfl

/-- The seven parities of R81 are the check bits that ENCODE computes. -/
theorem outputWord_bufferWord_pack (r : Word64) : outputWord (bufferWord (pack r)) =
    (bufferWord (pack r) &&& 0xFFFFFF7FFF7F7F17) ||| bitAt ((encodeReg r).getLsbD 32) 39
      ||| bitAt ((encodeReg r).getLsbD 16) 23 ||| bitAt ((encodeReg r).getLsbD 8) 15
      ||| bitAt ((encodeReg r).getLsbD 0) 7 ||| bitAt ((encodeReg r).getLsbD 1) 6
      ||| bitAt ((encodeReg r).getLsbD 2) 5 ||| bitAt ((encodeReg r).getLsbD 4) 3 := by
  have c1 := par_eq_getLsbD_encodeReg (e := 0) (by decide) Proofs.code1WritesItsBit r
  have c2 := par_eq_getLsbD_encodeReg (e := 1) (by decide) Proofs.code2WritesItsBit r
  have c4 := par_eq_getLsbD_encodeReg (e := 2) (by decide) Proofs.code4WritesItsBit r
  have c8 := par_eq_getLsbD_encodeReg (e := 3) (by decide) Proofs.code8WritesItsBit r
  have c16 := par_eq_getLsbD_encodeReg (e := 4) (by decide) Proofs.code16WritesItsBit r
  have c32 := par_eq_getLsbD_encodeReg (e := 5) (by decide) Proofs.code32WritesItsBit r
  have data : par (bufferWord (pack r) &&& 0xFFFFFF7FFF7F7F17) = xorOver dataPositions r :=
    par_bufferWord_pack_and r (rwMask := 0xFFFFFFFEFFFEFEE8) (by decide) (by decide)
  have p := getLsbD_encodeReg_zero r
  simp only [codePositions, xorOver_cons, xorOver_nil, Bool.xor_false, ← Bool.xor_assoc] at p
  simp only [outputWord, c1, c2, c4, c8, c16, c32, data, p]
  rfl

/-- The mask of R81 keeps the data positions, and the other bits of the closed form stand at none of them. -/
theorem outputMask_of_mem_dataPositions : ∀ k ∈ dataPositions,
    (0xFFFFFF7FFF7F7F17 : Word64).getLsbD (k ^^^ 7) = true ∧ k ^^^ 7 ∉ [39, 23, 15, 7, 6, 5, 3] := by decide

/-- The closed form is the packed codeword (43_packer.md R81). -/
theorem outputWord_eq_bufferWord_pack_encodeReg (r : Word64) :
    outputWord (bufferWord (pack r)) = bufferWord (pack (encodeReg r)) := by
  refine BitVec.eq_of_getLsbD_eq fun p hp => ?_
  obtain ⟨k, hk, rfl⟩ : ∃ k < 64, p = k ^^^ 7 :=
    ⟨p ^^^ 7, (xor_seven_bounds p hp).1, (Nat.xor_xor_cancel_right p 7).symm⟩
  rw [outputWord_bufferWord_pack, getLsbD_bufferWord_pack _ hp, Nat.xor_xor_cancel_right]
  obtain rfl | ⟨e, he, rfl⟩ | hdata := eq_zero_or_two_pow_or_mem_dataPositions hk
  · simp [getLsbD_bitAt, -BitVec.getLsbD_eq_getElem]
  · interval_cases e <;> simp [getLsbD_bitAt, -BitVec.getLsbD_eq_getElem]
  · obtain ⟨hmask, hother⟩ := outputMask_of_mem_dataPositions k hdata
    simp only [List.mem_cons, List.not_mem_nil, or_false, not_or] at hother
    simp only [BitVec.getLsbD_or, BitVec.getLsbD_and, hmask, getLsbD_bufferWord_pack r hp, Nat.xor_xor_cancel_right]
    simp [getLsbD_bitAt, hother, getLsbD_encodeReg_of_data r hdata, -BitVec.getLsbD_eq_getElem]

theorem bufferWord_drvgenBytes (L : Block) : bufferWord (drvgenBytes L) = outputWord (bufferWord L) := by
  rw [drvgenBytes, ← outputWord_eq_bufferWord_pack_encodeReg, pack_unpack]

/-! ### The XOR of words -/

theorem unpack_eq_xor {A B C : Block} (h : bufferWord C = bufferWord A ^^^ bufferWord B) :
    unpack C = unpack A ^^^ unpack B := by
  refine BitVec.eq_of_getLsbD_eq fun k hk => ?_
  simp only [BitVec.getLsbD_xor, getLsbD_unpack_eq_bufferWord _ hk, h]

theorem bufferWord_pack_xor (a b : Word64) :
    bufferWord (pack (a ^^^ b)) = bufferWord (pack a) ^^^ bufferWord (pack b) := by
  refine BitVec.eq_of_getLsbD_eq fun p hp => ?_
  simp only [BitVec.getLsbD_xor, getLsbD_bufferWord_pack _ hp]

/-! ### The outputs, counted by their data bits -/

/-- The output whose data bits are 1 at the positions of a set and 0 elsewhere. -/
def outputOf (S : Finset Nat) : Block := pack (encodeReg (ofBits 64 (fun k => decide (k ∈ S))))

theorem getLsbD_encodeReg_ofBits (f : Nat → Bool) {k : Nat} (hk : k ∈ dataPositions) :
    (encodeReg (ofBits 64 f)).getLsbD k = f k := by
  rw [getLsbD_encodeReg_of_data _ hk, getLsbD_ofBits, decide_eq_true (mem_dataPositions.mp hk).1, Bool.true_and]

/-- An output tells its data bits. -/
theorem injOn_outputOf : Set.InjOn outputOf dataPositions.toFinset.powerset := by
  intro S hS T hT h
  have hdata : ∀ U ∈ dataPositions.toFinset.powerset, ∀ k ∈ U, k ∈ dataPositions :=
    fun U hU k hk => List.mem_toFinset.mp (Finset.mem_powerset.mp hU hk)
  have hreg := congrArg unpack h
  rw [outputOf, outputOf, unpack_pack, unpack_pack] at hreg
  have hbit : ∀ k ∈ dataPositions, (k ∈ S ↔ k ∈ T) := fun k hk => by
    rw [← decide_eq_decide, ← getLsbD_encodeReg_ofBits (fun k => decide (k ∈ S)) hk, hreg,
      getLsbD_encodeReg_ofBits _ hk]
  ext k
  exact ⟨fun hk => (hbit k (hdata S hS k hk)).mp hk, fun hk => (hbit k (hdata T hT k hk)).mpr hk⟩

/-- The data bits of the input decide the output, and any may be given (43_packer.md R82). -/
theorem range_drvgenBytes :
    Set.range drvgenBytes = outputOf '' (dataPositions.toFinset.powerset : Set (Finset Nat)) := by
  ext M
  constructor
  · rintro ⟨L, rfl⟩
    refine ⟨dataPositions.toFinset.filter (fun k => (unpack L).getLsbD k),
      Finset.mem_powerset.mpr (Finset.filter_subset _ _), ?_⟩
    refine congrArg pack (encodeReg_congr fun k hk => ?_)
    rw [getLsbD_ofBits, decide_eq_true (mem_dataPositions.mp hk).1]
    simp [hk, -BitVec.getLsbD_eq_getElem]
  · rintro ⟨S, -, rfl⟩
    exact ⟨pack _, congrArg (pack ∘ encodeReg) (unpack_pack _)⟩

end Sys2Proof.Machine
end

section
/-! The statements about the packer and the whole invocation (43_packer.md), settled. -/

namespace Sys2Proof.Proofs

open Sys2Proof.Machine Sys2Proof.Claims

/-- Settles O41: ten steps and the sequence of the ten operations both end in the last state of the invocation. -/
theorem invocationComputesDrvgen : Obligations.InvocationComputesDrvgen := by
  rintro s L _ rfl
  refine ⟨invocationState L 10, run_invocationState L 10 (p := 0) (by decide),
    execSeq_invocationState L (ops := drvgenOps) (p := 0) (by decide) (by decide),
    (Memory.block_eq_some _ _).mp (block_invocationState L), phaseReg_eight L, rfl, ?_, result_invocationState_ten L⟩
  exact ⟨field1 (drvgenBytes L), field0 (drvgenBytes L), rfl, rfl, toNat_bigEndian32 _ _ _ _,
    toNat_bigEndian32 _ _ _ _, rfl⟩

/-- Settles O18: the whole write of PACK, whatever the buffer held. -/
theorem packStoresRegister : Obligations.PackStoresRegister := by
  refine ⟨decodeOp_encodeOp .pack, fun s => ⟨_, exec_pack s, Memory.block_putBlock _ _, fun i hi => ?_, fun a ha => ?_,
    rfl, ⟨rfl, rfl⟩, toNat_nextPhase⟩⟩
  · exact ⟨(pack s.r)[i], (Memory.block_eq_some _ _).mp (Memory.block_putBlock s.buf _) i hi, toNat_getElem_pack s.r hi⟩
  · rw [State.advance_buf, State.withBuf_buf, Memory.read_putBlock, dif_neg (by omega)]

/-- Settles O19: REPORT reads the block that the eight bytes make up and writes its two fields. -/
theorem reportSplitsBuffer : Obligations.ReportSplitsBuffer := by
  refine ⟨decodeOp_encodeOp .report, fun s L hread => ?_⟩
  have hblock : Memory.block s.buf = some L := (Memory.block_eq_some s.buf L).mpr hread
  exact ⟨_, field1 L, field0 L, exec_report_of_block s L hblock, rfl, rfl, toNat_bigEndian32 _ _ _ _,
    toNat_bigEndian32 _ _ _ _, bufferWord_eq_append_fields L, rfl, fun _ => rfl, toNat_nextPhase⟩

/-- Settles O25: a packed byte bit by bit and as a number, and the inverse on both sides. -/
theorem packReassemblesBytes : Obligations.PackReassemblesBytes :=
  ⟨fun r _ hi => ⟨fun _ hm => getLsbD_getElem_pack r hi hm, toNat_getElem_pack r hi⟩, pack_unpack, unpack_pack⟩

/-- Settles O42: a bit that the data mask keeps is a data position, which ENCODE leaves as it is; the seven others are
where R39 puts the check bits. -/
theorem outputKeepsDataBits : Obligations.OutputKeepsDataBits := by
  obtain ⟨hplaces, hmasks⟩ := computedBitsInBuffer
  have hcomplement : ∀ (i : Nat) (h : i < 8), dataMask[i] ^^^ computedMask[i] = 0xFF := by decide
  refine ⟨fun L i hi => ⟨BitVec.eq_of_getLsbD_eq fun b hb => ?_, hcomplement i hi⟩,
    fun L c hc => (hplaces _ c hc).1⟩
  rw [BitVec.getLsbD_and, BitVec.getLsbD_and]
  obtain ⟨m, hm, rfl⟩ : ∃ m < 8, b = 7 - m := ⟨7 - b, by omega, by omega⟩
  obtain ⟨-, hdata⟩ := hmasks i hi (7 - m) hb
  rw [show 63 - 8 * i - (7 - m) = 56 - 8 * i + m by omega, classOf_eq_data (by omega)] at hdata
  cases hmask : (dataMask[i]).getLsbD (7 - m)
  · rw [Bool.and_false, Bool.and_false]
  · rw [getLsbD_getElem_drvgenBytes L hi hm (hdata.mp hmask)]

/-- Settles O43: the closed form is the word of the output bytes, and its bit 7 is register bit 0. -/
theorem closedFormOnBufferWord : Obligations.ClosedFormOnBufferWord := by
  intro L
  have hword := bufferWord_drvgenBytes L
  refine ⟨hword, hword ▸ field1_eq_extractLsb' _, hword ▸ field0_eq_extractLsb' _, ?_⟩
  have hparity := par_bufferWord_pack_and (unpack L) (rwMask := 0x9669699669969668) (vMask := 0x6996966996696916)
    (S := evenPositions) (by decide) (by decide)
  rw [pack_unpack] at hparity
  rw [hparity, ← hword, drvgenBytes, getLsbD_bufferWord_pack _ (by decide)]
  exact getLsbD_encodeReg_zero_eq_evenPositions _

/-- Settles O44: what holds of ENCODE, seen through `unpack` and `pack`. -/
theorem drvgenProperties : Obligations.DrvgenProperties := by
  obtain ⟨-, hmasked⟩ := checkBitsOfInputAreIgnored
  refine ⟨?_, fun L => ?_, hmasked, fun L => ?_, fun A B C h => ?_⟩
  · have hpack : pack 0 = #v[0, 0, 0, 0, 0, 0, 0, 0] := by decide
    have hbytes : drvgenBytes #v[0, 0, 0, 0, 0, 0, 0, 0] = #v[0, 0, 0, 0, 0, 0, 0, 0] := by
      rw [← hpack, drvgenBytes, unpack_pack, encodeReg_zero]
    rw [drvgen, hbytes]
    decide
  · rw [drvgenBytes, drvgenBytes, unpack_pack, encodeReg_of_codeword (codeword_encodeReg _)]
  · rw [drvgenBytes, popcount_bufferWord_pack]
    exact popcount_mod_two_of_codeword (codeword_encodeReg _)
  · simp only [drvgenBytes, unpack_eq_xor h, encodeReg_xor, bufferWord_pack_xor]

/-- Settles O45: the outputs stand one to one for the sets of data positions, of which there are 57. -/
theorem outputSetHasSize2Pow57 : Obligations.OutputSetHasSize2Pow57 := by
  have hcount : dataPositions.toFinset.card = 57 := by decide
  rw [Obligations.OutputSetHasSize2Pow57, range_drvgenBytes, injOn_outputOf.ncard_image, Set.ncard_coe_finset,
    Finset.card_powerset, hcount]

end Sys2Proof.Proofs
end

section
/-! SUPPORT. Facts the statements about exceptions and the host rest on: when an operation and a step answer a next
state, which texts the host accepts, its exit status, and the text of its report. -/

namespace Sys2Proof.Machine

/-! ### What an operation and a step can answer -/

/-- An operation completes, or it reads a buffer that has no value (60_exceptions.md R85). -/
theorem exec_next_or_refused (i : Instr) (s : State) : (∃ t, exec i s = .next t) ∨
    (Memory.block s.buf = none ∧ exec i s = .refused .bufferWithoutValue) := by
  cases i with
  | build =>
    cases hb : Memory.block s.buf with
    | none => exact .inr ⟨rfl, exec_build_of_none s hb⟩
    | some L => exact .inl ⟨_, exec_build_of_block s L hb⟩
  | report =>
    cases hb : Memory.block s.buf with
    | none => exact .inr ⟨rfl, exec_report_of_none s hb⟩
    | some L => exact .inl ⟨_, exec_report_of_block s L hb⟩
  | code1 => exact .inl ⟨_, exec_code1 s⟩
  | code2 => exact .inl ⟨_, exec_code2 s⟩
  | code4 => exact .inl ⟨_, exec_code4 s⟩
  | code8 => exact .inl ⟨_, exec_code8 s⟩
  | code16 => exact .inl ⟨_, exec_code16 s⟩
  | code32 => exact .inl ⟨_, exec_code32 s⟩
  | parity => exact .inl ⟨_, exec_parity s⟩
  | pack => exact .inl ⟨_, exec_pack s⟩

theorem exec_ne_fault (i : Instr) (s : State) (e : Fault) : exec i s ≠ .fault e := by
  obtain ⟨t, ht⟩ | ⟨-, ht⟩ := exec_next_or_refused i s
  · exact ht ▸ nofun
  · exact ht ▸ nofun

theorem step_ne_fault (s : State) (e : Fault) : step s ≠ .fault e := by
  cases hop : decodeOp s.ph with
  | none => exact step_of_decodeOp_none hop ▸ nofun
  | some i => exact step_of_decodeOp hop ▸ exec_ne_fault i s e

theorem exists_exec_eq_next (i : Instr) {s : State} {L : Block} (h : Memory.block s.buf = some L) :
    ∃ t, exec i s = .next t :=
  (exec_next_or_refused i s).resolve_right fun ⟨hnone, _⟩ => nomatch h.symm.trans hnone

theorem isSome_decodeOp_of_lt_ten : ∀ op : OpIndex, op.toNat < 10 → (decodeOp op).isSome := by decide

theorem exists_step_eq_next {s : State} {L : Block} (h : Memory.block s.buf = some L) (hph : s.ph.toNat < 10) :
    ∃ t, step s = .next t := by
  obtain ⟨i, hi⟩ := Option.isSome_iff_exists.mp (isSome_decodeOp_of_lt_ten s.ph hph)
  exact step_of_decodeOp hi ▸ exists_exec_eq_next i h

/-! ### The texts the host accepts -/

/-- An even number of hex digits are half as many bytes (30_encoding.md R43). -/
theorem exists_hexBytes_eq_some {n : Nat} : ∀ {text : List Char}, text.length = 2 * n →
    (∀ c ∈ text, hexValue c ≠ none) → ∃ bytes, bytes.length = n ∧ hexBytes text = some bytes := by
  induction n with
  | zero => exact fun hlen _ => ⟨[], rfl, hexBytes_eq_some_nil.mpr (List.length_eq_zero_iff.mp hlen)⟩
  | succ n ih =>
    intro text hlen hdigits
    match text with
    | [] => simp at hlen
    | [_] => rw [List.length_singleton] at hlen; omega
    | c :: d :: rest =>
      simp only [List.forall_mem_cons, Option.ne_none_iff_exists'] at hdigits
      obtain ⟨⟨hi, hc⟩, ⟨lo, hd⟩, hrest⟩ := hdigits
      obtain ⟨bs, hbs, hparse⟩ := ih (text := rest) (by simp at hlen; omega)
        (fun x hx => Option.ne_none_iff_exists'.mpr (hrest x hx))
      exact ⟨_ :: bs, congrArg (· + 1) hbs, hexBytes_cons_cons_eq_some.mpr ⟨hi, lo, bs, hc, hd, hparse, rfl⟩⟩

theorem hexValue_ne_none_of_parseInput {text : List Char} {L : Block} (h : parseInput text = some L) :
    ∀ c ∈ text, hexValue c ≠ none := by
  have hflip : List.Forall₂ (fun c d => hexValue c ≠ none ∧ hexValue d = hexValue c) text (blockText L) :=
    ((parseInput_eq_some.mp h).imp fun _ _ ⟨hne, heq⟩ => ⟨heq ▸ hne, heq⟩).flip
  exact ((List.forall₂_and_left _ _).mp hflip).left

theorem exists_parseInput_eq_some {text : List Char} (hlen : text.length = 16)
    (hdigits : ∀ c ∈ text, hexValue c ≠ none) : ∃ L, parseInput text = some L := by
  obtain ⟨bytes, hbytes, hparse⟩ := exists_hexBytes_eq_some (n := 8) hlen hdigits
  exact ⟨⟨bytes.toArray, hbytes⟩, by rw [parseInput, hparse]; exact blockOfBytes_toList ⟨bytes.toArray, hbytes⟩⟩

/-! ### The host's actions and its exit status -/

theorem hostAction_of_two_le_length {args : List (List Char)} (h : 2 ≤ args.length) :
    hostAction args = .reject .usage := by
  match args with
  | [] => simp at h
  | [_] => simp at h
  | _ :: _ :: _ => rfl

theorem hostAction_of_length_ne {text : List Char} (hlong : text ≠ ['-', '-', 'h', 'e', 'l', 'p'])
    (hshort : text ≠ ['-', 'h']) (hlen : text.length ≠ 16) : hostAction [text] = .reject .length := by
  rw [hostAction, if_neg (not_or_intro hlong hshort), if_pos hlen]

/-- No help text has 16 characters, so at that length the characters decide (60_exceptions.md R91). -/
theorem hostAction_of_parseInput_eq_none {text : List Char} (hlen : text.length = 16) (h : parseInput text = none) :
    hostAction [text] = .reject .invalidCharacter := by
  have hlong : text ≠ ['-', '-', 'h', 'e', 'l', 'p'] := by rintro rfl; simp at hlen
  have hshort : text ≠ ['-', 'h'] := by rintro rfl; simp at hlen
  rw [hostAction, if_neg (not_or_intro hlong hshort), if_neg (not_not_intro hlen), h]

theorem hostStatus_of_reject {args : List (List Char)} {e : HostError} (h : hostAction args = .reject e) :
    hostStatus args = 1 := by
  rw [hostStatus, h]

theorem hostStatus_of_ne_reject {args : List (List Char)} (h : ∀ e, hostAction args ≠ .reject e) :
    hostStatus args = 0 := by
  cases ha : hostAction args with
  | reject e => exact absurd ha (h e)
  | randomInput => rw [hostStatus, ha]
  | help => rw [hostStatus, ha]
  | givenInput L => rw [hostStatus, ha]

/-- A host that gets an input rejects nothing (60_exceptions.md R92). -/
theorem hostAction_ne_reject_of_hostInput {args : List (List Char)} {draw L : Block}
    (h : hostInput args draw = some L) (e : HostError) : hostAction args ≠ .reject e := by
  intro ha
  rw [hostInput, ha] at h
  cases h

/-! ### The text of the report -/

theorem length_fieldText (w : Word32) : (fieldText w).length = 8 := List.length_map _

/-- The digits of half a word are digits of the word. -/
theorem fieldText_extractLsb' (v : Word64) (a : Nat) : fieldText (v.extractLsb' a 32) =
    [7, 6, 5, 4, 3, 2, 1, 0].map (fun t => hexDigit (v.extractLsb' (a + 4 * t) 4)) := by
  have hbound : ∀ t ∈ [7, 6, 5, 4, 3, 2, 1, 0], 4 * t + 4 ≤ 32 := by decide
  exact List.map_congr_left fun t ht =>
    congrArg hexDigit (extractLsb'_extractLsb'_of_add_le v a (hbound t ht))

/-- The two field texts in a row are the digits of the block (43_packer.md R78). -/
theorem fieldText_append_fieldText (L : Block) :
    fieldText (field1 L) ++ fieldText (field0 L) = blockText L := by
  rw [field1_eq_extractLsb', field0_eq_extractLsb', fieldText_extractLsb', fieldText_extractLsb',
    blockText_eq_map_bufferWord]
  rfl

theorem report_invocationState_ten (L : Block) : (invocationState L 10).report =
    some (reportRows (field1 (drvgenBytes L)) (field0 (drvgenBytes L))) := by
  rw [State.report, result_invocationState_ten, drvgen]

end Sys2Proof.Machine
end

section
/-! The statements about exceptions and the host's front end (60_exceptions.md), settled. -/

namespace Sys2Proof.Proofs

open Sys2Proof.Machine

/-- Settles O21: an operation can only complete or find no value in the buffer. -/
theorem noOperationFaults : Obligations.NoOperationFaults :=
  ⟨exec_ne_fault, step_ne_fault, fun i _ _ h => exists_exec_eq_next i h, fun _ _ h hph => exists_step_eq_next h hph⟩

/-- Settles O49: from BUILD on the invariant gives the buffer a value, and with a value every step below 10 goes on. -/
theorem invariantStatesGoOn : Obligations.InvariantStatesGoOn := by
  intro s hinv
  cases hb : Memory.block s.buf with
  | none =>
    refine .inr ⟨?_, rfl⟩
    by_contra hne
    obtain ⟨L, hL, -⟩ := hinv.dataBits (by bv_omega)
    exact nomatch hb.symm.trans hL
  | some L =>
    obtain hlt | h10 := hinv.phLe.lt_or_eq
    · exact .inl (.inl (exists_step_eq_next hb hlt))
    · exact .inl (.inr (BitVec.eq_of_toNat_eq h10))

/-- Settles O53: the checks one by one, and 16 characters parse exactly when each of them is a hex digit. -/
theorem hostChecksInOrder : Obligations.HostChecksInOrder := by
  refine ⟨fun _ => hostAction_of_two_le_length, rfl, by decide, by decide, fun _ => hostAction_of_length_ne,
    fun text hlen hbad => ?_, fun text hlen hdigits => ?_, fun _ _ => hostStatus_of_reject,
    fun _ => hostStatus_of_ne_reject⟩
  · obtain ⟨c, hc, hnone⟩ := hbad
    refine hostAction_of_parseInput_eq_none hlen (Option.eq_none_iff_forall_ne_some.mpr fun L hL => ?_)
    exact hexValue_ne_none_of_parseInput hL c hc hnone
  · obtain ⟨L, hL⟩ := exists_parseInput_eq_some hlen hdigits
    exact ⟨L, hostAction_eq_givenInput.mpr ⟨hlen, hL⟩⟩

/-- Settles O54: ten steps lead to the last state of the invocation, whose fields are the output's two halves. -/
theorem hostRunReportsOutput : Obligations.HostRunReportsOutput := by
  intro args draw L hinput
  refine ⟨hostStatus_of_ne_reject (hostAction_ne_reject_of_hostInput hinput), invocationState L 10, _,
    run_invocationState L 10 (p := 0) (by decide), report_invocationState_ten L, rfl, ?_, ?_⟩
  · rw [reportRows, List.flatMap_cons, List.flatMap_cons, List.flatMap_nil, List.append_nil,
      fieldText_append_fieldText]
  · simp [reportRows, length_fieldText]

end Sys2Proof.Proofs
end

section
/-! SUPPORT. Facts the statements about the start state and the order of the operations rest on: the invariant before
the first step, and the one form of a sequence that meets the four orderings. -/

namespace Sys2Proof.Machine

/-! ### Before the first step -/

/-- Nothing is due of a state in which no operation has run. -/
theorem PhaseInv.of_phase_zero {s : State} (hwf : Memory.wf s.buf) (hr : s.r = 0) (hph : s.ph = 0)
    (hfields : s.drv1 = none ∧ s.drv0 = none) : PhaseInv s := by
  have hzero : s.ph.toNat = 0 := congrArg BitVec.toNat hph
  exact {
    wf := hwf
    phLe := by omega
    zeroAtStart := fun _ => hr
    dataBits := fun hle => by omega
    codeBits := fun e _ hle => by omega
    evenParity := fun hle => by omega
    packed := fun hle => by omega
    fieldsUnset := fun _ => hfields
    fieldsSet := fun h10 => absurd (hph.symm.trans h10) (by decide) }

/-! ### The four orderings -/

theorem idxOf_lt_of_comesBefore {a b : Instr} {ops : List Instr} (h : comesBefore a b ops = true) :
    ops.idxOf a < ops.idxOf b :=
  of_decide_eq_true (Bool.and_eq_true_iff.mp h).2

/-- The four orderings of 70_reset_and_hazards.md R104 as positions in the sequence. -/
theorem idxOf_lt_of_meetsOrder {ops : List Instr} (h : meetsOrder ops = true) :
    ops.Perm drvgenOps ∧
    (∀ i ∈ encodeOps, ops.idxOf .build < ops.idxOf i) ∧
    (∀ i ∈ codeOps, ops.idxOf i < ops.idxOf .parity) ∧
    (∀ i ∈ encodeOps, ops.idxOf i < ops.idxOf .pack) ∧
    ops.idxOf .pack < ops.idxOf .report := by
  simp only [meetsOrder, Bool.and_eq_true, List.all_eq_true, List.isPerm_iff] at h
  obtain ⟨⟨⟨⟨hperm, hbuild⟩, hparity⟩, hpack⟩, hreport⟩ := h
  exact ⟨hperm, fun i hi => idxOf_lt_of_comesBefore (hbuild i hi), fun i hi => idxOf_lt_of_comesBefore (hparity i hi),
    fun i hi => idxOf_lt_of_comesBefore (hpack i hi), idxOf_lt_of_comesBefore hreport⟩

/-- A list without repetition is sorted by the position in it. -/
theorem pairwise_idxOf_lt {l : List Instr} (h : l.Nodup) : l.Pairwise (fun a b => l.idxOf a < l.idxOf b) := by
  refine List.pairwise_iff_getElem.mpr fun i j hi hj hij => ?_
  rwa [h.idxOf_getElem i hi, h.idxOf_getElem j hj]

/-- The four orderings leave only the order of the CODE operations free: the sequence and this form of it have the same
members, and both are sorted by the position in the sequence. -/
theorem eq_of_meetsOrder {ops : List Instr} (h : meetsOrder ops = true) :
    ∃ codes : List Instr, codes.Perm codeOps ∧ ops = Instr.build :: (codes ++ [Instr.parity, .pack, .report]) := by
  obtain ⟨hperm, hbuild, hparity, hpack, hreport⟩ := idxOf_lt_of_meetsOrder h
  have hsorted := pairwise_idxOf_lt (hperm.nodup_iff.mpr (by decide))
  have hcodes : (ops.filter (· ∈ codeOps)).Perm codeOps := hperm.filter _
  have hparityPack := hpack .parity (by decide)
  have hparityFirst : ∀ i ∈ [Instr.parity, .pack, .report], ops.idxOf .parity ≤ ops.idxOf i := by
    simpa using ⟨hparityPack.le, (hparityPack.trans hreport).le⟩
  have hmembers : (Instr.build :: (ops.filter (· ∈ codeOps) ++ [Instr.parity, .pack, .report])).Perm drvgenOps :=
    (hcodes.append_right [.parity, .pack, .report]).cons .build
  refine ⟨ops.filter (· ∈ codeOps), hcodes, List.Perm.eq_of_pairwise
    (fun _ _ _ _ hlt hgt => absurd hlt hgt.not_gt) hsorted ?_ (hperm.trans hmembers.symm)⟩
  refine List.pairwise_cons.mpr ⟨fun i hi => ?_, List.pairwise_append.mpr
    ⟨hsorted.filter _, ?_, fun i hi j hj => ?_⟩⟩
  · obtain hcode | hlast := List.mem_append.mp hi
    · exact hbuild i (List.mem_append_left _ (hcodes.mem_iff.mp hcode))
    · exact (hbuild .parity (by decide)).trans_le (hparityFirst i hlast)
  · simpa using ⟨⟨hparityPack, hparityPack.trans hreport⟩, hreport⟩
  · exact (hparity i (hcodes.mem_iff.mp hi)).trans_le (hparityFirst j hj)

/-- A sequence that meets the four orderings does what the canonical one does (70_reset_and_hazards.md R104). -/
theorem execSeq_of_meetsOrder {ops : List Instr} (h : meetsOrder ops = true) (s : State) :
    execSeq ops s = execSeq drvgenOps s := by
  obtain ⟨codes, hcodes, rfl⟩ := eq_of_meetsOrder h
  have hrest : execSeq (codes ++ [Instr.parity, .pack, .report]) =
      execSeq (codeOps ++ [Instr.parity, .pack, .report]) := by
    funext t
    rw [execSeq_append, execSeq_append, execSeq_perm_codeOps hcodes fun i => hcodes.mem_iff.mp]
  exact congrArg (andThen (exec .build s)) hrest

/-! ### An order that breaks one of the four -/

/-- One sequence for each of the four orderings that breaks it: a CODE operation before BUILD, PARITY before the CODE
operations, PACK before PARITY, REPORT before PACK. -/
def misorderedOps : List (List Instr) :=
  [[.code1, .build, .code2, .code4, .code8, .code16, .code32, .parity, .pack, .report],
   [.build, .parity, .code1, .code2, .code4, .code8, .code16, .code32, .pack, .report],
   [.build, .code1, .code2, .code4, .code8, .code16, .code32, .pack, .parity, .report],
   [.build, .code1, .code2, .code4, .code8, .code16, .code32, .parity, .report, .pack]]

/-- `DRV0` after a sequence of operations on an input, `none` where the sequence stops. -/
def drv0After (ops : List Instr) (L : Block) : Option Word32 :=
  match execSeq ops (State.reset.load L) with
  | .next t => t.drv0
  | .fault _ => none
  | .refused _ => none

/-- The input with 1 at the check-bit positions 0 and 1 and no data bit set, whose output is 0. -/
def checkBitsOnly : Block := #v[0, 0, 0, 0, 0, 0, 0, 0xC0]

set_option maxRecDepth 4000 in
theorem drv0After_drvgenOps_checkBitsOnly : drv0After drvgenOps checkBitsOnly = some 0 := by decide

set_option maxRecDepth 4000 in
/-- Each misordered sequence leaves a check bit of the input, or a parity bit made from one, in its result. -/
theorem map_drv0After_misorderedOps : misorderedOps.map (fun ops => drv0After ops checkBitsOnly) =
    [some 0xC0, some 0x80, some 0x80, some 0xC0] := by decide

theorem drv0After_misorderedOps_ne : ∀ ops ∈ misorderedOps,
    drv0After ops checkBitsOnly ≠ drv0After drvgenOps checkBitsOnly := by
  intro ops hops
  have hmem := List.mem_map_of_mem (f := fun ops => drv0After ops checkBitsOnly) hops
  rw [map_drv0After_misorderedOps] at hmem
  rw [drv0After_drvgenOps_checkBitsOnly]
  exact fun h => absurd (h ▸ hmem) (by decide)

end Sys2Proof.Machine
end

section
/-! The statements about reset, the start of an invocation and the orderings (70_reset_and_hazards.md), settled. -/

namespace Sys2Proof.Proofs

open Sys2Proof.Machine

/-- Settles O46: the orderings fix all but the order of the CODE operations, which is free; and on an input of check
bits alone each order that breaks one of them reports another `DRV0`. -/
theorem fourOrderingsDecideTheResult : Obligations.FourOrderingsDecideTheResult := by
  refine ⟨fun ops s L h => execSeq_of_meetsOrder h (s.load L), fun ops hops => ⟨.reset, checkBitsOnly, fun heq => ?_⟩⟩
  exact drv0After_misorderedOps_ne ops hops (by rw [drv0After, heq, drv0After])

/-- Settles O8: the start state keeps nothing of the state before it, and its buffer is the whole write of the input
where no address had a value. -/
theorem invocationStartState : Obligations.InvocationStartState := by
  intro s s' L
  refine ⟨State.load_r s L, State.load_drv1 s L, State.load_drv0 s L, State.load_ph s L, fun i hi => ?_, fun a ha => ?_,
    rfl⟩
  · rw [State.load_buf, Memory.read_putBlock, dif_pos hi]
  · rw [State.load_buf, Memory.read_putBlock, dif_neg ha.not_gt, Memory.read]

/-- Settles O48: no operation has run in either state, and the host's write keeps the buffer's form. -/
theorem phaseInvariantAtStart : Obligations.PhaseInvariantAtStart :=
  ⟨.of_phase_zero Memory.wf_nil rfl rfl ⟨rfl, rfl⟩,
    fun _ L => .of_phase_zero (Memory.wf_putBlock [] L Memory.wf_nil) rfl rfl ⟨rfl, rfl⟩⟩

end Sys2Proof.Proofs
end

section
/-! SUPPORT. Facts the statement about a placed word rests on: what the decoder reads from an opcode-table word, and
the state with that word placed, field by field. -/

namespace Sys2Proof.Machine

/-- A table word decodes to the operation whose encoding its bytes begin with. -/
theorem decodeTableWord_eq_some {nbits w : Nat} {i : Instr} :
    decodeTableWord nbits w = some i ↔ ∃ rest, tableBytes nbits w = encode i ++ rest := by
  simp only [← decode_eq_ok_iff_encode]
  cases hdec : decode (tableBytes nbits w) with
  | error e => simp [decodeTableWord, hdec]
  | ok p => simp [decodeTableWord, hdec, Prod.ext_iff]

theorem phaseOfByte_encodeOp (i : Instr) : phaseOfByte ((encodeOp i).setWidth 8) = encodeOp i := by
  cases i <;> rfl

theorem Memory.readied_of_block {m : List Host.Cell} {L : Block} (h : Memory.block m = some L) :
    Memory.readied m = m := by
  simp only [Memory.readied, h]

section

variable (s : State) (nbits w : Nat)

@[simp] theorem State.withFetchWord_buf : (s.withFetchWord nbits w).buf = Memory.readied s.buf := rfl
@[simp] theorem State.withFetchWord_r : (s.withFetchWord nbits w).r = s.r := rfl
@[simp] theorem State.withFetchWord_drv1 : (s.withFetchWord nbits w).drv1 = s.drv1 := rfl
@[simp] theorem State.withFetchWord_drv0 : (s.withFetchWord nbits w).drv0 = s.drv0 := rfl
@[simp] theorem State.withFetchWord_ph :
    (s.withFetchWord nbits w).ph = phaseOfByte ((tableBytes nbits w).headD 0) := rfl

end

/-- Placing a word that decodes sets `PH` to the index of its operation (10_state.md R15). -/
theorem State.withFetchWord_ph_of_decodeTableWord (s : State) {nbits w : Nat} {i : Instr}
    (h : decodeTableWord nbits w = some i) : (s.withFetchWord nbits w).ph = encodeOp i := by
  obtain ⟨rest, hbytes⟩ := decodeTableWord_eq_some.mp h
  rw [State.withFetchWord_ph, hbytes]
  exact phaseOfByte_encodeOp i

end Sys2Proof.Machine
end

section
/-! The statement about a placed word (10_state.md section 5, 30_encoding.md section 5), settled. -/

namespace Sys2Proof.Proofs

open Sys2Proof.Machine

/-- Settles O4: the placed `PH` is the index of the operation the word decodes to, so the step selects it. -/
theorem placedWordRuns : Obligations.PlacedWordRuns := by
  intro s nbits w i h
  have hsel : decodeOp (s.withFetchWord nbits w).ph = some i :=
    decodeOp_eq_some.mpr (s.withFetchWord_ph_of_decodeTableWord h)
  exact ⟨step_of_decodeOp hsel, s.withFetchWord_r nbits w,
    ⟨s.withFetchWord_drv1 nbits w, s.withFetchWord_drv0 nbits w⟩,
    fun _ hL => (s.withFetchWord_buf nbits w).trans (Memory.readied_of_block hL)⟩

end Sys2Proof.Proofs
end
